-- ==== Sys2Proof/Word.lean ====
section
/-! DEFINITION. The machine word, the register names and the modulo-256 vocabulary
(spec/00_scope.md R5, R6; spec/10_state.md R11, R14). -/

namespace Sys2Proof

/-- An 8-bit value: a register, the program counter, an address, a memory cell, an operand
byte (R5, R14, R15, R30). Its arithmetic wraps modulo 256 (R6) and it is never signed (R5). -/
abbrev Byte := BitVec 8

/-- The index of a general register, 0 to 7 (R11). -/
abbrev RegName := Fin 8

end Sys2Proof
end

