-- ==== Sys2Proof/Config.lean ====
section
/-! DEFINITION. The parameters of the hardware (spec/00_scope.md R4): the fixed sizes, the twelve
opcode values `OPC_*`, which the spec leaves OPEN (spec/30_encoding.md R49), and the host's
`EXIT_FAULT`, which it leaves OPEN too (spec/60_exceptions.md R124). -/

namespace Sys2Proof

/-- The twelve opcode parameters `OPC_LDI` ... `OPC_HLT` (R49). Everything that decodes takes
such a map as an argument, because a model "takes them as configuration". -/
structure OpcodeMap where
  /-- `OPC_LDI` -/
  ldi : Byte
  /-- `OPC_PRN` -/
  prn : Byte
  /-- `OPC_MUL` -/
  mul : Byte
  /-- `OPC_CMP` -/
  cmp : Byte
  /-- `OPC_PUSH` -/
  push : Byte
  /-- `OPC_POP` -/
  pop : Byte
  /-- `OPC_CALL` -/
  call : Byte
  /-- `OPC_RET` -/
  ret : Byte
  /-- `OPC_JMP` -/
  jmp : Byte
  /-- `OPC_JEQ` -/
  jeq : Byte
  /-- `OPC_JNE` -/
  jne : Byte
  /-- `OPC_HLT` -/
  hlt : Byte
  deriving DecidableEq, Repr

/-- The twelve values in the order of R49's table. -/
def OpcodeMap.values (m : OpcodeMap) : List Byte :=
  [m.ldi, m.prn, m.mul, m.cmp, m.push, m.pop, m.call, m.ret, m.jmp, m.jeq, m.jne, m.hlt]

/-- The one requirement R49 makes of the twelve values: pairwise distinct. -/
abbrev OpcodeMap.Distinct (m : OpcodeMap) : Prop := m.values.Nodup

namespace Config

/-- The default opcode values of R49's table.
PRESUMED, unsafe (log entry 1): the spec marks all twelve as general knowledge, not in the
source. `step` runs with these; statements quantify over every distinct map where they can. -/
def opcodes : OpcodeMap where
  ldi := 0x82
  prn := 0x47
  mul := 0xA2
  cmp := 0xA7
  push := 0x45
  pop := 0x46
  call := 0x50
  ret := 0x11
  jmp := 0x54
  jeq := 0x55
  jne := 0x56
  hlt := 0x01

/-- `SP_INDEX`: the register that is the stack pointer (R4, R12). -/
def spIndex : RegName := 7

/-- `MEM_SIZE`: the number of memory cells (R4, R30). -/
def memSize : Nat := 256

/-- `PC_RESET` (R4, R26). -/
def pcReset : Byte := 0

/-- `REG_RESET`, the value of every register after reset, SP included (R4, R26). -/
def regReset : Byte := 0

/-- `MEM_RESET`: what a cell that nothing has written reads as (R4, R26, R31). -/
def memReset : Byte := 0

/-- The host's exit code on Fault, less one. An OPEN parameter of the host (R4 `EXIT_FAULT`,
R124, decision D20): nothing is known of it. -/
opaque exitFaultPred : Nat

/-- `EXIT_FAULT` (R4, R124): the host's exit code on Fault, any non-zero value. -/
def exitFault : Nat := exitFaultPred + 1

end Config

end Sys2Proof
end

