-- ==== Sys2Proof/Machine/State.lean ====
section
/-! DEFINITION. The complete architectural state of spec/10_state.md R10, as plain data: the
general registers, the program counter, the three flags, the run state, memory and the output
stream, and their reset values (R26). -/

namespace Sys2Proof.Machine

/-- The fault kinds of R110 with the `info` each records. A fault of this hardware is a STATE
(R22, R118): `raise` records it in `rs`, so the step that raises one answers a next state. No step
answers the outcome `fault`. `UnsupportedALUOperation` (R114) is not here: the rule says a model
should not have it. -/
inductive Fault where
  /-- Raised by the decode stage when the byte at `pc` is none of the twelve opcodes (R111).
  Safe: the spec names the fault. -/
  | unknownInstruction (opcode pc : Byte)
  /-- Raised by the operand check of the ten instructions that have a register operand, when an
  operand byte is 8 or more (R112). Safe: the spec names the fault. -/
  | registerOutOfRange (opcode pc index : Byte)
  /-- Raised by the ALU operation DIV when the divisor register holds 0 (R113). No instruction
  selects DIV (R77), so no step raises it. Safe: the spec names the fault. -/
  | divisionByZero (pc : Byte) (a b : RegName)
  deriving DecidableEq, Repr

/-- Why the model declines to answer. -/
inductive Refusal where
  /-- An instruction with no meaning yet, by its mnemonic in spec/opcode_table.json. No arm of
  `exec` raises it: all twelve have their meaning. Safe. -/
  | notModelled (mnemonic : String)
  /-- Raised by `launch` for a program image of more than 256 bytes, to which the spec gives no
  meaning (R131, decision D21). No step raises it. Safe. -/
  | imageTooLong (length : Nat)
  deriving DecidableEq, Repr

/-- The flag register FL: three named booleans (R18). -/
structure Flags where
  /-- `FL.L` -/
  less : Bool
  /-- `FL.G` -/
  greater : Bool
  /-- `FL.E` -/
  equal : Bool
  deriving DecidableEq, Repr

/-- The run state `rs` (R22). -/
inductive RunState where
  /-- The core executes steps; entered by reset. -/
  | running
  /-- The clean stop; entered by HLT, left by reset only. -/
  | halted
  /-- The stop on an error, with its kind and info; entered by `raise`, left by reset only. -/
  | fault (f : Fault)
  deriving DecidableEq, Repr

/-- Memory `M[0]` to `M[255]` (R30) as (address, byte) pairs; a cell that is not listed holds
its reset value 0 (R26, R31). Canonical form: `Memory.wf` in Machine/Ops.lean. -/
abbrev Memory := List Host.Cell

/-- The tuple of R10. "Nothing else is state; a model needs no other field." -/
structure State where
  /-- `x[0]` to `x[7]`; `x[7]` is SP (R11, R12). -/
  regs : Vector Byte 8
  /-- The program counter (R15). -/
  pc : Byte
  /-- FL (R18). -/
  flags : Flags
  /-- The run state (R22). -/
  rs : RunState
  /-- The one address space, shared by code, data and stack (R30). -/
  mem : Memory
  /-- The values PRN has emitted since reset, oldest first (R24). -/
  out : List Byte
  deriving DecidableEq, Repr

/-- FL after reset: all false (R26, decision D5). -/
def Flags.reset : Flags where
  less := false
  greater := false
  equal := false

/-- The machine right after reset (R26, R130), before the host has loaded a program image:
every register 0, SP included, `pc` 0, flags false, Running, every cell 0, nothing emitted. -/
def State.reset : State where
  regs := Vector.replicate 8 Config.regReset
  pc := Config.pcReset
  flags := Flags.reset
  rs := .running
  mem := []
  out := []

end Sys2Proof.Machine
end

