-- ==== Sys2Proof/Machine/Ops.lean ====
section
/-! DEFINITION. The named operations over memory, registers, the program counter, the output
stream and the stack, and `raise`, which takes a fault (spec/00_scope.md R7, spec/20_memory.md
R31, spec/43_stack.md R90, spec/60_exceptions.md R118). -/

namespace Sys2Proof.Machine

/-! ### Memory (R30, R31) -/

/-- The byte listed first at address `a`, or the reset value of a cell (R31). -/
def Memory.read : Memory → Nat → Byte
  | [], _ => Config.memReset
  | (b, v) :: rest, a => if b = a then v else Memory.read rest a

/-- Take every entry for address `a` out. -/
def Memory.erase (m : Memory) (a : Nat) : Memory := m.filter (fun c => c.1 != a)

/-- Put a cell in front of the first entry of a higher address. -/
def Memory.insert : Memory → Nat → Byte → Memory
  | [], a, v => [(a, v)]
  | (b, w) :: rest, a, v =>
    if a < b then (a, v) :: (b, w) :: rest else (b, w) :: Memory.insert rest a v

/-- Write one cell; every other cell is unchanged (R31). A cell that is written with the reset
value is not listed, which keeps the form canonical. -/
def Memory.write (m : Memory) (a : Nat) (v : Byte) : Memory :=
  if v = Config.memReset then m.erase a else (m.erase a).insert a v

/-- The canonical form: addresses strictly rising, all of them cells of the 256, and no entry
equal to what an unlisted cell reads as. -/
def Memory.wf (m : Memory) : Bool :=
  decide (m.Pairwise (fun c d => c.1 < d.1)) &&
    m.all (fun c => decide (c.1 < Config.memSize) && c.2 != Config.memReset)

/-- `MemRead(addr, 1)` (R7, R31): total, changes nothing. -/
def State.memRead (s : State) (a : Byte) : Byte := Memory.read s.mem a.toNat

/-- `MemWrite(addr, 1, v)` (R7, R31): total, changes one cell. -/
def State.memWrite (s : State) (a v : Byte) : State :=
  { s with mem := Memory.write s.mem a.toNat v }

/-! ### Registers, `pc`, FL and `out` (R7) -/

/-- `x[i]` (R7, R11). -/
def State.reg (s : State) (r : RegName) : Byte := s.regs[r]

/-- `x[i] <- v` (R7). -/
def State.setReg (s : State) (r : RegName) (v : Byte) : State :=
  { s with regs := s.regs.set r v }

/-- SP, which is `x[7]` and no register of its own (R12). -/
def State.sp (s : State) : Byte := s.reg Config.spIndex

/-- `pc <- t` (R7). -/
def State.setPc (s : State) (t : Byte) : State := { s with pc := t }

/-- `pc <- (pc + n) mod 256` (R16). -/
def State.advance (s : State) (n : Nat) : State := s.setPc (s.pc + BitVec.ofNat 8 n)

/-- Write all three flags at once (R19). -/
def State.setFlags (s : State) (f : Flags) : State := { s with flags := f }

/-- `out <- out ++ [v]` (R7, R24). -/
def State.emit (s : State) (v : Byte) : State := { s with out := s.out ++ [v] }

/-- `rs <- r` (R22). -/
def State.setRunState (s : State) (r : RunState) : State := { s with rs := r }

/-! ### The stack: full, descending, wrapping (R90) -/

/-- The address a push stores to: SP after its decrement (R90, R91, R96). -/
def State.pushAddr (s : State) : Byte := s.sp - 1

/-- `x[7] <- (x[7] - 1) mod 256`. -/
def State.decSp (s : State) : State := s.setReg Config.spIndex s.pushAddr

/-- `x[7] <- (x[7] + 1) mod 256`. -/
def State.incSp (s : State) : State := s.setReg Config.spIndex (s.sp + 1)

/-- A push: SP is decremented first, then the cell SP now names is written (R90). `v` is worked
out by the instruction, from the state after the decrement where its rule says so. -/
def State.push (s : State) (v : Byte) : State := s.decSp.memWrite s.pushAddr v

/-- The byte on top of the stack, the one the next pop returns: the cell's content, whatever it
is (R37, R90). -/
def State.top (s : State) : Byte := s.memRead s.sp

/-! ### Taking a fault, and the stopped machine -/

/-- `raise K(info)` (R118): `rs <- Fault(K, info)` and nothing else; `pc` stays on the faulting
instruction's opcode, nothing is saved, no handler is entered. There is no return from a fault
(R119), so no operation undoes this one. -/
def State.raise (s : State) (f : Fault) : Host.Outcome State Fault Refusal :=
  .next (s.setRunState (.fault f))

/-- `rs` is Halted or Fault: the run has ended (R22, R66). -/
def RunState.terminal : RunState → Bool
  | .running => false
  | .halted => true
  | .fault _ => true

/-- What a step is in a terminal state: no step is taken and all state keeps its value (R65).
The identity is one of the two forms R65 offers (log entry 3). -/
def State.frozen (s : State) : Host.Outcome State Fault Refusal := .next s

/-- Reset applied to any state: everything, memory and a fault record included, takes its reset
value and nothing survives (R119, R130, decision D24). -/
def State.applyReset (_ : State) : State := State.reset

/-- The numeric fault codes of R110 (decision D17: presentation only). Code 4,
`UnsupportedALUOperation`, is never raised (R114). -/
def Fault.code : Fault → Nat
  | .unknownInstruction _ _ => 1
  | .registerOutOfRange _ _ _ => 2
  | .divisionByZero _ _ _ => 3

end Sys2Proof.Machine
end

