-- ==== Sys2Proof/Machine/Flags.lean ====
section
/-! DEFINITION. Every flag computation there is: what CMP writes (spec/41_alu.md R75) and what
JEQ and JNE test (spec/44_control.md R99, R100). -/

namespace Sys2Proof.Machine

/-- The three flags of an unsigned comparison (R75). -/
def compareFlags (x y : Byte) : Flags where
  less := decide (x.toNat < y.toNat)
  greater := decide (x.toNat > y.toNat)
  equal := decide (x.toNat = y.toNat)

/-- The branch condition of JEQ: "Equal flag is set" (R99). -/
def Flags.eqHolds (f : Flags) : Bool := f.equal

/-- The branch condition of JNE: "Equal flag is clear" (R100). -/
def Flags.neHolds (f : Flags) : Bool := !f.equal

/-- FL as the 3-bit value `L G E` (R21, decision D18: presentation only). -/
def Flags.bits (f : Flags) : BitVec 3 :=
  BitVec.ofBool f.less ++ BitVec.ofBool f.greater ++ BitVec.ofBool f.equal

/-- At most one flag is true: the four values FL takes, 000, L only, G only, E only (R21). -/
def Flags.legal (f : Flags) : Bool :=
  !(f.less && f.greater) && !(f.less && f.equal) && !(f.greater && f.equal)

/-- Exactly one flag is true: what FL is after any CMP (R21, R75). -/
def Flags.exactlyOne (f : Flags) : Bool :=
  f.legal && (f.less || f.greater || f.equal)

end Sys2Proof.Machine
end

