-- ==== Sys2Proof/Syntax.lean ====
section
/-! DEFINITION. The closed set of twelve instructions with their operand bytes
(spec/30_encoding.md R45, R46, R50). -/

namespace Sys2Proof

/-- One constructor per row of spec/opcode_table.json, in the table's order. An operand is the
WHOLE operand byte (R45: "Every field is a whole byte"): a register operand may therefore
name no register, which the operand check of the step finds out (R47, `Machine.regidx`). -/
inductive Instr where
  /-- `LDI Rd,imm` (R85): operand 1 a register index, operand 2 the only immediate there is. -/
  | ldi (op1 op2 : Byte)
  /-- `PRN Rs` (R86) -/
  | prn (op1 : Byte)
  /-- `MUL Ra,Rb` (R78) -/
  | mul (op1 op2 : Byte)
  /-- `CMP Ra,Rb` (R79) -/
  | cmp (op1 op2 : Byte)
  /-- `PUSH Rs` (R91) -/
  | push (op1 : Byte)
  /-- `POP Rd` (R92) -/
  | pop (op1 : Byte)
  /-- `CALL Rt` (R96) -/
  | call (op1 : Byte)
  /-- `RET` (R97) -/
  | ret
  /-- `JMP Rt` (R98) -/
  | jmp (op1 : Byte)
  /-- `JEQ Rt` (R99) -/
  | jeq (op1 : Byte)
  /-- `JNE Rt` (R100) -/
  | jne (op1 : Byte)
  /-- `HLT` (R105) -/
  | hlt
  deriving DecidableEq, Repr

end Sys2Proof
end

