-- ==== Sys2Proof/WellFormed.lean ====
section
/-! DEFINITION. Well-formed instructions: every register-index operand names a register
(spec/30_encoding.md R46, R47). -/

namespace Sys2Proof

/-- A register-index operand byte names a register: 0 to 7 (R47). -/
def isRegIndex (b : Byte) : Bool := decide (b.toNat ≤ 7)

/-- The register-index operands of an instruction, operand 1 before operand 2 (R46, R47).
LDI's operand 2 is the immediate and is not among them (R85). -/
def Instr.regOperands : Instr → List Byte
  | .ldi a _ => [a]
  | .prn a => [a]
  | .mul a b => [a, b]
  | .cmp a b => [a, b]
  | .push a => [a]
  | .pop a => [a]
  | .call a => [a]
  | .ret => []
  | .jmp a => [a]
  | .jeq a => [a]
  | .jne a => [a]
  | .hlt => []

/-- Every register-index operand names a register, so the operand check of the step passes. -/
def Instr.wf (i : Instr) : Bool := i.regOperands.all isRegIndex

/-- The first register-index operand that names no register: the byte RegisterOutOfRange
reports (R112, R117). -/
def Instr.firstBadOperand (i : Instr) : Option Byte :=
  i.regOperands.find? (fun b => !isRegIndex b)

end Sys2Proof
end

