-- ==== Sys2Proof/Machine/Operands.lean ====
section
/-! DEFINITION. Operand forms: the register-index operand with its range check
(spec/30_encoding.md R47, spec/40_fetch_decode.md R63) and the immediate (R48), which is the
operand byte as it stands and needs no operation. -/

namespace Sys2Proof.Machine

/-- `regidx(b)` (R47): the whole operand byte read as an unsigned number; 8 to 255 name no
register. The upper bits are not ignored and the index is not reduced modulo 8. -/
def regidx (b : Byte) : Option RegName :=
  if h : b.toNat < 8 then some (Fin.mk b.toNat h) else none

/-- The operand byte that names a register (R47). -/
def regByte (r : RegName) : Byte := BitVec.ofNat 8 r.val

/-- `raise RegisterOutOfRange(opcode, pc, b)` (R47, R112). The opcode is the byte `pc` addresses:
until the instruction's own `pc` write `pc` holds the address of its opcode byte (R15), and the
check comes before any write (R63), so this is the byte that was fetched (log entry 4). -/
def raiseOutOfRange (s : State) (b : Byte) : Host.Outcome State Fault Refusal :=
  s.raise (.registerOutOfRange (s.memRead s.pc) s.pc b)

/-- Check one register-index operand and go on with the register it names, or fault before any
state is changed (R47, R63). -/
def withReg (b : Byte) (s : State) (k : RegName → Host.Outcome State Fault Refusal) :
    Host.Outcome State Fault Refusal :=
  match regidx b with
  | some r => k r
  | none => raiseOutOfRange s b

end Sys2Proof.Machine
end

