-- ==== Sys2Proof/Machine/Alu.lean ====
section
/-! DEFINITION. The ALU with its closed set of five operations (spec/41_alu.md R70 to R77) and
the two instructions that select one, MUL (R78) and CMP (R79). -/

namespace Sys2Proof.Machine

/-- The closed set of ALU operations (R70, R76). -/
inductive AluOp where
  | add | sub | mul | div | cmp
  deriving DecidableEq, Repr

/-- `alu(op, a, b)` (R70): the arithmetic operations write `x[a]`, CMP writes FL, nothing else
changes. Arithmetic wraps modulo 256 (R71 to R73), DIV truncates and raises DivisionByZero on a
zero divisor (R74), CMP compares unsigned (R75). -/
def alu (op : AluOp) (a b : RegName) (s : State) : Except Fault State :=
  match op with
  | .add => .ok (s.setReg a (s.reg a + s.reg b))
  | .sub => .ok (s.setReg a (s.reg a - s.reg b))
  | .mul => .ok (s.setReg a (s.reg a * s.reg b))
  | .div =>
    if s.reg b = 0 then .error (.divisionByZero s.pc a b)
    else .ok (s.setReg a (s.reg a / s.reg b))
  | .cmp => .ok (s.setFlags (compareFlags (s.reg a) (s.reg b)))

/-- A step that performs an ALU operation on two checked register operands and advances over
three bytes; a fault of the ALU ends the step at once (R60, R118). -/
def aluStep (op : AluOp) (a b : RegName) (s : State) : Host.Outcome State Fault Refusal :=
  match alu op a b s with
  | .ok t => .next (t.advance 3)
  | .error f => s.raise f

/-- MUL Ra,Rb (R78). -/
def execMul (op1 op2 : Byte) (s : State) : Host.Outcome State Fault Refusal :=
  withReg op1 s fun a => withReg op2 s fun b => aluStep .mul a b s

/-- CMP Ra,Rb (R79). -/
def execCmp (op1 op2 : Byte) (s : State) : Host.Outcome State Fault Refusal :=
  withReg op1 s fun a => withReg op2 s fun b => aluStep .cmp a b s

end Sys2Proof.Machine
end

