-- ==== Sys2Proof/Machine/Control.lean ====
section
/-! DEFINITION. Control transfer (spec/44_control.md R95): CALL (R96), RET (R97), JMP (R98), JEQ
(R99), JNE (R100). -/

namespace Sys2Proof.Machine

/-- A two-byte conditional transfer: to the register's content when the condition holds, else to
the next instruction (R99, R100). -/
def branchIf (taken : Bool) (t : RegName) (s : State) : State :=
  if taken then s.setPc (s.reg t) else s.advance 2

/-- CALL Rt (R96): the return address is `(pc + 2) mod 256` and goes to the stack; the target is
read after SP's decrement, so `CALL R7` jumps to the decremented SP (decision D14). -/
def execCall (op1 : Byte) (s : State) : Host.Outcome State Fault Refusal :=
  withReg op1 s fun t => .next ((s.push (s.pc + 2)).setPc (s.decSp.reg t))

/-- RET (R97): the return address is read at the old SP. -/
def execRet (s : State) : Host.Outcome State Fault Refusal :=
  .next ((s.setPc s.top).incSp)

/-- JMP Rt (R98). -/
def execJmp (op1 : Byte) (s : State) : Host.Outcome State Fault Refusal :=
  withReg op1 s fun t => .next (s.setPc (s.reg t))

/-- JEQ Rt (R99): the operand is checked whether or not the branch is taken. -/
def execJeq (op1 : Byte) (s : State) : Host.Outcome State Fault Refusal :=
  withReg op1 s fun t => .next (branchIf s.flags.eqHolds t s)

/-- JNE Rt (R100): the operand is checked whether or not the branch is taken. -/
def execJne (op1 : Byte) (s : State) : Host.Outcome State Fault Refusal :=
  withReg op1 s fun t => .next (branchIf s.flags.neHolds t s)

end Sys2Proof.Machine
end

