-- ==== Sys2Proof/Machine/Halt.lean ====
section
/-! DEFINITION. HLT (spec/45_halt.md R105). -/

namespace Sys2Proof.Machine

/-- HLT (R105): `rs <- Halted`; `pc` stays on the HLT opcode (decision D11). -/
def execHlt (s : State) : Host.Outcome State Fault Refusal :=
  .next (s.setRunState .halted)

end Sys2Proof.Machine
end

