-- ==== Sys2Proof/Machine/LoadPrint.lean ====
section
/-! DEFINITION. LDI (spec/42_load_print.md R85) and PRN (R86). -/

namespace Sys2Proof.Machine

/-- LDI Rd,imm (R85): operand 2 is written as it stands and is never checked. -/
def execLdi (op1 op2 : Byte) (s : State) : Host.Outcome State Fault Refusal :=
  withReg op1 s fun d => .next ((s.setReg d op2).advance 3)

/-- PRN Rs (R86). -/
def execPrn (op1 : Byte) (s : State) : Host.Outcome State Fault Refusal :=
  withReg op1 s fun r => .next ((s.emit (s.reg r)).advance 2)

end Sys2Proof.Machine
end

