-- ==== Sys2Proof/Machine/Stack.lean ====
section
/-! DEFINITION. PUSH (spec/43_stack.md R91) and POP (R92). -/

namespace Sys2Proof.Machine

/-- PUSH Rs (R91): SP is decremented first and `x[s]` is read after the decrement, so `PUSH R7`
pushes the decremented SP (decision D14). -/
def execPush (op1 : Byte) (s : State) : Host.Outcome State Fault Refusal :=
  withReg op1 s fun r => .next ((s.push (s.decSp.reg r)).advance 2)

/-- POP Rd (R92): the byte is read at the old SP, the destination is written, SP is incremented
last, so `POP R7` leaves SP at the popped byte plus 1 (decision D14). -/
def execPop (op1 : Byte) (s : State) : Host.Outcome State Fault Refusal :=
  withReg op1 s fun d => .next ((s.setReg d s.top).incSp.advance 2)

end Sys2Proof.Machine
end

