-- ==== Sys2Proof/Machine/Dispatch.lean ====
section
/-! DEFINITION. Execute (spec/40_fetch_decode.md R64): one arm per instruction. -/

namespace Sys2Proof.Machine

/-- The decoded instruction's rule, its own `pc` write included (R64). -/
def exec (i : Instr) (s : State) : Host.Outcome State Fault Refusal :=
  match i with
  | .ldi op1 op2 => Sys2Proof.Machine.execLdi op1 op2 s
  | .prn op1 => Sys2Proof.Machine.execPrn op1 s
  | .mul op1 op2 => Sys2Proof.Machine.execMul op1 op2 s
  | .cmp op1 op2 => Sys2Proof.Machine.execCmp op1 op2 s
  | .push op1 => Sys2Proof.Machine.execPush op1 s
  | .pop op1 => Sys2Proof.Machine.execPop op1 s
  | .call op1 => Sys2Proof.Machine.execCall op1 s
  | .ret => Sys2Proof.Machine.execRet s
  | .jmp op1 => Sys2Proof.Machine.execJmp op1 s
  | .jeq op1 => Sys2Proof.Machine.execJeq op1 s
  | .jne op1 => Sys2Proof.Machine.execJne op1 s
  | .hlt => Sys2Proof.Machine.execHlt s

end Sys2Proof.Machine
end

