-- ==== Sys2Proof/Decode.lean ====
section
/-! DEFINITION. The decoder, total on any bytes, and the encoder, both from the opcode map and
the formats of spec/30_encoding.md (R45, R46, R49 to R54). -/

namespace Sys2Proof

/-- The twelve rows of the opcode map (R50), in the source's order. -/
inductive Op where
  | ldi | prn | mul | cmp | push | pop | call | ret | jmp | jeq | jne | hlt
  deriving DecidableEq, Repr

/-- The three formats (R45), named after their operand count. -/
inductive Format where
  /-- the opcode byte alone -/
  | f0
  /-- opcode, operand 1 -/
  | f1
  /-- opcode, operand 1, operand 2 -/
  | f2
  deriving DecidableEq, Repr

/-- Why a byte string is not an instruction. -/
inductive DecodeError where
  /-- There is no opcode byte at all; a fetch from memory never answers this. -/
  | noBytes
  /-- The opcode byte is none of the twelve: the decoder's verdict "unknown" (R51). -/
  | unknownOpcode (opcode : Byte)
  /-- The string ends before the last operand byte; a fetch from memory never answers this. -/
  | truncated (op : Op)
  deriving DecidableEq, Repr

/-- All rows of R50's table. -/
def Op.all : List Op :=
  [.ldi, .prn, .mul, .cmp, .push, .pop, .call, .ret, .jmp, .jeq, .jne, .hlt]

/-- The "format" column of R50. -/
def Op.format : Op → Format
  | .ldi => .f2
  | .prn => .f1
  | .mul => .f2
  | .cmp => .f2
  | .push => .f1
  | .pop => .f1
  | .call => .f1
  | .ret => .f0
  | .jmp => .f1
  | .jeq => .f1
  | .jne => .f1
  | .hlt => .f0

/-- The "length" column of R45, in bytes. -/
def Format.length : Format → Nat
  | .f0 => 1
  | .f1 => 2
  | .f2 => 3

/-- The instruction's length, a function of its opcode alone (R53). -/
def Op.length (op : Op) : Nat := op.format.length

/-- The opcode byte the map gives a row (R49, R50). -/
def OpcodeMap.byte (m : OpcodeMap) : Op → Byte
  | .ldi => m.ldi
  | .prn => m.prn
  | .mul => m.mul
  | .cmp => m.cmp
  | .push => m.push
  | .pop => m.pop
  | .call => m.call
  | .ret => m.ret
  | .jmp => m.jmp
  | .jeq => m.jeq
  | .jne => m.jne
  | .hlt => m.hlt

/-- Decode (R51, R62): compare all eight bits of the opcode byte with the twelve values;
`none` is the verdict "unknown". -/
def decodeOpcode (m : OpcodeMap) (b : Byte) : Option Op :=
  Op.all.find? (fun op => m.byte op == b)

/-- The decoded instruction with its operand bytes (R46); a byte the format does not have is
ignored. -/
def Op.toInstr (op : Op) (op1 op2 : Byte) : Instr :=
  match op with
  | .ldi => .ldi op1 op2
  | .prn => .prn op1
  | .mul => .mul op1 op2
  | .cmp => .cmp op1 op2
  | .push => .push op1
  | .pop => .pop op1
  | .call => .call op1
  | .ret => .ret
  | .jmp => .jmp op1
  | .jeq => .jeq op1
  | .jne => .jne op1
  | .hlt => .hlt

/-- Take the operand bytes the row's format calls for off the front of a byte string
(R45, R63). -/
def takeOperands (op : Op) (rest : List Byte) : Except DecodeError (Instr × List Byte) :=
  match op.format, rest with
  | .f0, rest => .ok (op.toInstr 0 0, rest)
  | .f1, a :: rest => .ok (op.toInstr a 0, rest)
  | .f2, a :: b :: rest => .ok (op.toInstr a b, rest)
  | _, _ => .error (.truncated op)

/-- Read one instruction off the front of a byte string (R45, R51): the instruction and the
bytes after it, or the reason there is none. -/
def decodeWith (m : OpcodeMap) : List Byte → Except DecodeError (Instr × List Byte)
  | [] => .error .noBytes
  | b :: rest =>
    match decodeOpcode m b with
    | none => .error (.unknownOpcode b)
    | some op => takeOperands op rest

/-- The decoder under the default opcode values. -/
def decode (bytes : List Byte) : Except DecodeError (Instr × List Byte) :=
  decodeWith Config.opcodes bytes

/-- The row of R50's table an instruction belongs to. -/
def Instr.op : Instr → Op
  | .ldi _ _ => .ldi
  | .prn _ => .prn
  | .mul _ _ => .mul
  | .cmp _ _ => .cmp
  | .push _ => .push
  | .pop _ => .pop
  | .call _ => .call
  | .ret => .ret
  | .jmp _ => .jmp
  | .jeq _ => .jeq
  | .jne _ => .jne
  | .hlt => .hlt

/-- The operand bytes in the order of their addresses (R46, R33). -/
def Instr.operands : Instr → List Byte
  | .ldi a b => [a, b]
  | .prn a => [a]
  | .mul a b => [a, b]
  | .cmp a b => [a, b]
  | .push a => [a]
  | .pop a => [a]
  | .call a => [a]
  | .ret => []
  | .jmp a => [a]
  | .jeq a => [a]
  | .jne a => [a]
  | .hlt => []

/-- The bytes of an instruction at ascending addresses: opcode, operand 1, operand 2
(R33, R45, R50). -/
def encodeWith (m : OpcodeMap) (i : Instr) : List Byte := m.byte i.op :: i.operands

/-- The encoder under the default opcode values. -/
def encode (i : Instr) : List Byte := encodeWith Config.opcodes i

/-- Byte `k` of a table word of `nbits` bits (bit 0 the least significant bit of the first
byte); every bit above `nbits` is 0. -/
def tableByte (nbits w k : Nat) : Byte := BitVec.ofNat 8 ((w % 2 ^ nbits) / 256 ^ k)

/-- The bytes of a table word, up to the longest instruction's length, at ascending
addresses. -/
def tableBytes (nbits w : Nat) : List Byte :=
  [tableByte nbits w 0, tableByte nbits w 1, tableByte nbits w 2]

/-- The instruction the decoder reads from a table word. -/
def decodeTableWord (nbits w : Nat) : Option Instr :=
  match decode (tableBytes nbits w) with
  | .ok (i, _) => some i
  | .error _ => none

/-- The mnemonic in capitals (R54). -/
def Op.mnemonic : Op → String
  | .ldi => "LDI"
  | .prn => "PRN"
  | .mul => "MUL"
  | .cmp => "CMP"
  | .push => "PUSH"
  | .pop => "POP"
  | .call => "CALL"
  | .ret => "RET"
  | .jmp => "JMP"
  | .jeq => "JEQ"
  | .jne => "JNE"
  | .hlt => "HLT"

/-- A register operand's spelling: `R` followed by its decimal index (R54). -/
def regSyntax (b : Byte) : String := "R" ++ toString b.toNat

/-- The operands' spelling, operand 1 first, separated by a comma (R54). -/
def Instr.operandSyntax : Instr → List String
  | .ldi a imm => [regSyntax a, toString imm.toNat]
  | i => i.regOperands.map regSyntax

/-- The assembler line of an instruction in R54's syntax. -/
def Instr.assembly (i : Instr) : String :=
  match i.operandSyntax with
  | [] => i.op.mnemonic
  | ops => i.op.mnemonic ++ " " ++ String.intercalate "," ops

end Sys2Proof
end

