-- ==== Sys2Proof/Machine/Fetch.lean ====
section
/-! DEFINITION. The fetch and decode stages of the step (spec/40_fetch_decode.md R60 to R63),
and placing an instruction's bytes where they are fetched. -/

namespace Sys2Proof.Machine

/-- Fetch: the byte at `pc`, from memory as it is at this step (R61, R40). -/
def State.fetchOpcode (s : State) : Byte := s.memRead s.pc

/-- Operand 1 lies at `(pc + 1) mod 256` (R33, R63). -/
def State.operandAddr1 (s : State) : Byte := s.pc + 1

/-- Operand 2 lies at `(pc + 2) mod 256` (R33, R63). -/
def State.operandAddr2 (s : State) : Byte := s.pc + 2

/-- Operand fetch of operand 1, only where the instruction's length calls for it (R60, R63);
otherwise the value is used by nothing. -/
def State.fetchOp1 (s : State) (op : Op) : Byte :=
  if 2 ≤ op.length then s.memRead s.operandAddr1 else 0

/-- Operand fetch of operand 2, only where the instruction's length calls for it (R60, R63);
otherwise the value is used by nothing. -/
def State.fetchOp2 (s : State) (op : Op) : Byte :=
  if op.length = 3 then s.memRead s.operandAddr2 else 0

/-- Fetch, decode and operand fetch (R60, stages 1, 2 and 2a): `none` is an unknown opcode, for
which no operand byte is read (R62). -/
def State.fetchInstr (m : OpcodeMap) (s : State) : Option Instr :=
  match decodeOpcode m s.fetchOpcode with
  | none => none
  | some op => some (op.toInstr (s.fetchOp1 op) (s.fetchOp2 op))

/-- The bytes at `pc`, `pc + 1` and `pc + 2`: the longest instruction (R45). -/
def State.window (s : State) : List Byte :=
  [s.memRead s.pc, s.memRead s.operandAddr1, s.memRead s.operandAddr2]

/-- `raise UnknownInstruction(opcode, pc)` (R62, R111). -/
def raiseUnknown (s : State) : Host.Outcome State Fault Refusal :=
  s.raise (.unknownInstruction s.fetchOpcode s.pc)

/-- Write bytes to ascending addresses from `a` on, modulo 256. -/
def State.placeBytes (s : State) (a : Byte) : List Byte → State
  | [] => s
  | b :: rest => State.placeBytes (s.memWrite a b) (a + 1) rest

end Sys2Proof.Machine
end

