-- ==== Sys2Proof/Machine/Step.lean ====
section
/-! DEFINITION. The fetch-decode-execute step (spec/40_fetch_decode.md R60, R65). -/

namespace Sys2Proof.Machine

/-- One step under an opcode map (R60): an unknown opcode faults, a decoded instruction is
executed, and in a terminal state no step is taken (R65). -/
def stepWith (m : OpcodeMap) (s : State) : Host.Outcome State Fault Refusal :=
  match s.rs with
  | .running =>
    match s.fetchInstr m with
    | some i => exec i s
    | none => raiseUnknown s
  | .halted => s.frozen
  | .fault _ => s.frozen

/-- One step under the default opcode values (R49, log entry 1). -/
def step (s : State) : Host.Outcome State Fault Refusal := stepWith Config.opcodes s

/-- `s` with a table word's bytes stored at `pc`, `pc + 1` and `pc + 2` and Running, which is
all the fetch needs (R61, R63, R65); it stands for the host's load (R131, log entry 2). -/
def State.withFetchWord (s : State) (nbits w : Nat) : State :=
  (s.placeBytes s.pc (tableBytes nbits w)).setRunState .running

end Sys2Proof.Machine
end

