-- ==== Sys2Proof/Machine/Access.lean ====
section
/-! DEFINITION. Which steps reach memory, and in which order (spec/20_memory.md R32): the
traffic of the memory port of decision D16. -/

namespace Sys2Proof.Machine

/-- One one-byte access at the memory port. -/
inductive Access where
  /-- `R`: a `MemRead` of the address -/
  | read (a : Byte)
  /-- `W`: a `MemWrite` to the address -/
  | write (a : Byte)
  deriving DecidableEq, Repr

/-- The accesses of fetch and operand fetch, in order (R32, R60). -/
def fetchAccesses (op : Op) (s : State) : List Access :=
  match op.format with
  | .f0 => [.read s.pc]
  | .f1 => [.read s.pc, .read s.operandAddr1]
  | .f2 => [.read s.pc, .read s.operandAddr1, .read s.operandAddr2]

/-- The data accesses of execution, all of them through SP (R32). -/
def dataAccesses (op : Op) (s : State) : List Access :=
  match op with
  | .ldi => []
  | .prn => []
  | .mul => []
  | .cmp => []
  | .push => [.write s.pushAddr]
  | .pop => [.read s.sp]
  | .call => [.write s.pushAddr]
  | .ret => [.read s.sp]
  | .jmp => []
  | .jeq => []
  | .jne => []
  | .hlt => []

/-- All accesses of one step, in order (R32): none in a terminal state (R65), only the opcode for
an unknown opcode (R62), and no data access when the operand check faults (R63). -/
def stepAccesses (m : OpcodeMap) (s : State) : List Access :=
  match s.rs with
  | .halted => []
  | .fault _ => []
  | .running =>
    match decodeOpcode m s.fetchOpcode with
    | none => [.read s.pc]
    | some op =>
      fetchAccesses op s ++
        (if (op.toInstr (s.fetchOp1 op) (s.fetchOp2 op)).wf then dataAccesses op s else [])

end Sys2Proof.Machine
end

