-- ==== Sys2Proof/Machine/Launch.lean ====
section
/-! DEFINITION. What the host does at the core's boundary: loading the program image
(spec/70_reset_and_hazards.md R131, R132) and reading the results (spec/60_exceptions.md R124). -/

namespace Sys2Proof.Machine

/-- The launch (R131): reset the core, then byte i of the image goes to `M[i]`; an image of more
than 256 bytes is refused (decision D21). -/
def launch (image : List Byte) : Host.Outcome State Fault Refusal :=
  if image.length ≤ Config.memSize then .next (State.reset.placeBytes 0 image)
  else .refused (.imageTooLong image.length)

/-- The process exit code the host makes of a terminal `rs` (R124): 0 on Halted, the open
parameter `EXIT_FAULT` on Fault, none while Running. -/
def exitCode : RunState → Option Nat
  | .running => none
  | .halted => some 0
  | .fault _ => some Config.exitFault

/-- The results at the core's boundary (R124, decision D16): the values emitted and the run
state, with the fault diagnostic inside it. -/
def State.results (s : State) : List Byte × RunState := (s.out, s.rs)

end Sys2Proof.Machine
end

