-- ==== Sys2Proof/Safety.lean ====
section
/-! DEFINITION. The terms claims use: what an instruction leaves alone, what a good state and a
safe run are. -/

namespace Sys2Proof.Machine

/-- Every register outside the list keeps its value. -/
def RegsKept (s t : State) (written : List RegName) : Prop :=
  ∀ r : RegName, r ∉ written → t.reg r = s.reg r

/-- Every byte of memory reads as before. -/
def MemKept (s t : State) : Prop :=
  ∀ a : Byte, t.memRead a = s.memRead a

/-- Every byte of memory but the one at `at'` reads as before. -/
def MemKeptBut (s t : State) (at' : Byte) : Prop :=
  ∀ a : Byte, a ≠ at' → t.memRead a = s.memRead a

/-- An instruction faults on the register operand `b` with `RegisterOutOfRange`, and nothing but the
run state changes (R112, R118). Which opcode the record names is said of a whole step
(`Obligations.BadOperandFaults`). -/
def OperandFault (i : Instr) (s : State) (b : Byte) : Prop :=
  ∃ opcode : Byte,
    exec i s = .next { s with rs := .fault (.registerOutOfRange opcode s.pc b) }

/-- A fault record is one the state `s` can hold (R111, R112, R118): it names the `pc` the machine
stopped at and the byte there, that byte is no opcode or the operand names no register, and it
is never DivisionByZero (R77, R113). -/
def FaultLegal (m : OpcodeMap) (s : State) : Fault → Prop
  | .unknownInstruction opcode pc =>
    pc = s.pc ∧ opcode = s.memRead s.pc ∧ decodeOpcode m opcode = none
  | .registerOutOfRange opcode pc index =>
    pc = s.pc ∧ opcode = s.memRead s.pc ∧ 7 < index.toNat ∧
      ∃ i : Instr, s.fetchInstr m = some i ∧ i.firstBadOperand = some index
  | .divisionByZero _ _ _ => False

/-- The run state is Running, Halted on an HLT, or Faulted with a legal record. -/
def RunStateLegal (m : OpcodeMap) (s : State) : Prop :=
  match s.rs with
  | .running => True
  | .halted => s.fetchInstr m = some .hlt
  | .fault f => FaultLegal m s f

/-- The invariant of the machine: memory in its canonical form, FL one of its four values (R21),
and a run state that tells the truth about the stop (R22, R105, R118). -/
structure Inv (m : OpcodeMap) (s : State) : Prop where
  /-- Memory is in canonical form. -/
  mem_wf : s.mem.wf = true
  /-- FL is one of 000, L only, G only, E only. -/
  flags_legal : s.flags.legal = true
  /-- The run state is one that a run can reach at this `pc`. -/
  rs_legal : RunStateLegal m s

/-- `t` is the state `n` steps after `s` under an opcode map (R66): one step, then the rest. -/
def RunsTo (m : OpcodeMap) : Nat → State → State → Prop
  | 0, s, t => s = t
  | n + 1, s, u => ∃ t : State, stepWith m s = .next t ∧ RunsTo m n t u

/-- `t` is reached from `s` by `k` steps that the hardware TAKES: each is taken from a Running state
(R65, R66), so the steps that the model answers in a terminal state (log entry 3) are not counted. -/
def StepsTaken (m : OpcodeMap) : Nat → State → State → Prop
  | 0, s, t => s = t
  | k + 1, s, u => s.rs = .running ∧ ∃ t : State, stepWith m s = .next t ∧ StepsTaken m k t u

/-- What ends a run (R22, R66): `u` is the terminal state that the step from `t` leads to, by an
HLT, an unknown opcode or a bad register operand, and it is `t` but for the run state. -/
def StopsAt (m : OpcodeMap) (t u : State) : Prop :=
  (t.fetchInstr m = some .hlt ∧ u = { t with rs := .halted }) ∨
    (t.fetchInstr m = none ∧
      u = { t with rs := .fault (.unknownInstruction (t.memRead t.pc) t.pc) }) ∨
    ∃ (i : Instr) (index : Byte), t.fetchInstr m = some i ∧ i.firstBadOperand = some index ∧
      u = { t with rs := .fault (.registerOutOfRange (m.byte i.op) t.pc index) }

/-- A safe run of `n` steps: the machine is in no Fault state at its end (and so, since a Fault
is never left, in none before). -/
def SafeRun (m : OpcodeMap) (n : Nat) (s : State) : Prop :=
  ∃ t : State, RunsTo m n s t ∧ ∀ f : Fault, t.rs ≠ .fault f

/-- A run that ends cleanly within `n` steps: Halted, exit code 0 (R124). The `n` steps may include
steps in the Halted state, which the hardware does not take (log entry 3). -/
def HaltsCleanly (m : OpcodeMap) (n : Nat) (s : State) : Prop :=
  ∃ t : State, RunsTo m n s t ∧ t.rs = .halted

end Sys2Proof.Machine
end

