-- ==== Sys2Proof/Certificates/Slice0/Obligations.lean ====
section
/-! DEFINITION. The statements for the provers. Each docstring says which rules of spec/ it
formalises; "model's choice" or "spec's decision" marks a clause that rests on one. -/

open Sys2Proof Sys2Proof.Machine

/-! ### Reset, launch and the invariant -/

/-- R26: the value of every piece of state after reset, and R130: reset applied to any state
gives that state. SP = 0 and false flags are the spec's decisions D4 and D5, re-reset is D24. -/
def Obligations.ResetValues : Prop :=
  ∀ s : State,
    (∀ r : RegName, s.applyReset.reg r = 0) ∧ s.applyReset.sp = 0 ∧ s.applyReset.pc = 0 ∧
      s.applyReset.flags.less = false ∧ s.applyReset.flags.greater = false ∧
      s.applyReset.flags.equal = false ∧ s.applyReset.rs = .running ∧
      (∀ a : Byte, s.applyReset.memRead a = 0) ∧ s.applyReset.out = [] ∧
      s.applyReset = State.reset

/-- The invariant `Inv` holds at reset, whatever the opcode values. -/
def Obligations.ResetHasInv : Prop :=
  ∀ m : OpcodeMap, Inv m State.reset

/-- Every step keeps the invariant: memory stays canonical, FL stays one of its four values (R21),
a Halted machine stands on an HLT (R105, decision D11), a fault record names the `pc` and the byte
there and is one of the two reachable kinds (R111, R112, R118, decision D10); DivisionByZero is never
recorded (R77, R113). From every state that meets it, for every opcode map. -/
def Obligations.StepKeepsInv : Prop :=
  ∀ (m : OpcodeMap) (s t : State), Inv m s → stepWith m s = .next t → Inv m t

/-- Every run of a launched image keeps the invariant (R21, R105, R111, R112, R118, as `Inv` says;
spec's decisions D10, D11), at any length and for every opcode map, and so no program ever reaches
DivisionByZero (R77; R74: "neither the quotient nor the fault can be produced by any program"). The
run corollary of `StepKeepsInv` and the launch. -/
def Obligations.LaunchedRunsKeepInv : Prop :=
  ∀ (m : OpcodeMap) (image : List Byte) (s t : State) (n : Nat),
    launch image = .next s → RunsTo m n s t →
      Inv m t ∧ ∀ pc a b, t.rs ≠ .fault (.divisionByZero pc a b)

/-- R131, R132: the launch resets the core and writes byte i of the image to `M[i]`; every other
piece of state has its reset value and the cells beyond the image stay 0. An image of more than 256
bytes is refused (spec's decision D21). -/
def Obligations.LaunchPlacesImage : Prop :=
  ∀ image : List Byte,
    (image.length ≤ 256 →
      ∃ s, launch image = .next s ∧
        (∀ a : Byte, s.memRead a = image.getD a.toNat 0) ∧
        s.regs = State.reset.regs ∧ s.pc = 0 ∧ s.flags = State.reset.flags ∧
        s.rs = .running ∧ s.out = [] ∧ s.mem.wf = true) ∧
    (256 < image.length → launch image = .refused (.imageTooLong image.length))

/-- R131, R27 (c): an empty image is legal; memory is all zero and the first step faults with
`UnknownInstruction(0x00, 0)`. Under the default opcode values, which are PRESUMED (log entry 1). -/
def Obligations.EmptyImageFaultsAtOnce : Prop :=
  launch [] = .next State.reset ∧
    step State.reset =
      .next { State.reset with rs := .fault (.unknownInstruction 0x00 0) }

/-- R27 (a), (b): from reset the first PUSH or CALL goes to address 255, the CALL storing its return
address 2 (R91, R96); a JEQ before any CMP falls through to 2 and a JNE before any CMP goes to its
register (R99, R100). SP = 0 and false flags at reset are the spec's decisions D4 and D5; that PUSH
R7 stores 255, the decremented SP, is its decision D14. -/
def Obligations.FirstStepsFromReset : Prop :=
  ∀ r : RegName,
    (∃ t, exec (.push (regByte r)) State.reset = .next t ∧ t.sp.toNat = 255 ∧
      t.memRead 255 = (if r = 7 then 255 else 0)) ∧
    (∃ t, exec (.call (regByte r)) State.reset = .next t ∧ t.sp.toNat = 255 ∧
      t.memRead 255 = 2) ∧
    (∃ t, exec (.jeq (regByte r)) State.reset = .next t ∧ t.pc = 2) ∧
    (∃ t, exec (.jne (regByte r)) State.reset = .next t ∧ t.pc = State.reset.reg r)

/-! ### Encoding and decoding -/

/-- Decode and encode agree, for EVERY instruction (every operand byte) and every map of distinct
opcodes (R45, R49 to R51): the decoder reads an encoded instruction back and leaves the bytes after
it. -/
def Obligations.DecodeOfEncode : Prop :=
  ∀ (m : OpcodeMap) (i : Instr) (rest : List Byte),
    m.Distinct → decodeWith m (encodeWith m i ++ rest) = .ok (i, rest)

/-- The other direction: whatever the decoder reads, its encoding is the bytes it consumed, as
many as the opcode's length says (R53). -/
def Obligations.EncodeOfDecode : Prop :=
  ∀ (m : OpcodeMap) (bytes rest : List Byte) (i : Instr),
    decodeWith m bytes = .ok (i, rest) →
      encodeWith m i ++ rest = bytes ∧ bytes.length = i.op.length + rest.length

/-- R51, whole: with twelve distinct opcodes a byte decodes to a row exactly if it equals that
row's opcode, and then the instruction is that row's, with its length and operands; the bytes that
equal none, 244 of the 256, are unknown, and a step on one faults with `UnknownInstruction(opcode,
pc)`. -/
def Obligations.OpcodeTableIsClosed : Prop :=
  ∀ m : OpcodeMap, m.Distinct →
    (∀ (b : Byte) (op : Op), decodeOpcode m b = some op ↔ b = m.byte op) ∧
    (∀ b : Byte, decodeOpcode m b = none ↔ ∀ op : Op, b ≠ m.byte op) ∧
    ((List.range 256).filter
      (fun n => (decodeOpcode m (BitVec.ofNat 8 n)).isNone)).length = 244 ∧
    (∀ (op : Op) (a b : Byte) (rest : List Byte), ∃ rest' : List Byte,
      decodeWith m (m.byte op :: a :: b :: rest) = .ok (op.toInstr a b, rest') ∧
        rest'.length + op.length = rest.length + 3) ∧
    (∀ s : State, s.rs = .running → decodeOpcode m (s.memRead s.pc) = none →
      stepWith m s = .next { s with rs := .fault (.unknownInstruction (s.memRead s.pc) s.pc) })

/-- Words written out bit by bit from R50 and R49's table decode to the instruction they stand
for. The opcode values are PRESUMED (log entry 1). -/
def Obligations.WordsDecodeAsTheTableSays : Prop :=
  decode [0b10000010, 0b00000101, 0b11111111] = .ok (.ldi 5 255, []) ∧
    decode [0b10100111, 0b00000001, 0b00000111] = .ok (.cmp 1 7, []) ∧
    decode [0b01000101, 0b00000011] = .ok (.push 3, []) ∧
    decode [0b01010110, 0b00000110] = .ok (.jne 6, []) ∧
    decode [0b00010001] = .ok (.ret, []) ∧
    decode [0b00000000, 0b00000111] = .error (.unknownOpcode 0) ∧
    decode [0b10100000, 0b00000000, 0b00000001] = .error (.unknownOpcode 160)

/-- A table word stored where the next fetch reads it runs as the instruction the decoder reads from
it, from any state. The model's own interface to the host's load (log entry 2), under the
PRESUMED opcode values (log entry 1). -/
def Obligations.StoredWordIsTheNextInstruction : Prop :=
  ∀ (s : State) (nbits w : Nat) (i : Instr), decodeTableWord nbits w = some i →
    step (s.withFetchWord nbits w) = exec i (s.withFetchWord nbits w)

/-! ### The step -/

/-- R60, R64: when the bytes at `pc`, `pc + 1`, `pc + 2` decode to an instruction, a step of the
running machine IS that instruction's execution; nothing is added around it, no advance of `pc` in
particular. -/
def Obligations.StepRunsDecodedInstruction : Prop :=
  ∀ (m : OpcodeMap) (s : State) (i : Instr) (rest : List Byte),
    s.rs = .running →
    decodeWith m [s.memRead s.pc, s.memRead (s.pc + 1), s.memRead (s.pc + 2)] = .ok (i, rest) →
      stepWith m s = exec i s ∧ (m = Config.opcodes → step s = exec i s)

/-- R111: an opcode byte that is none of the twelve values faults with `UnknownInstruction(opcode,
pc)`, before any state but the run state is changed, whatever the other bytes are. -/
def Obligations.UnknownOpcodeFaults : Prop :=
  ∀ (m : OpcodeMap) (s : State), s.rs = .running → (∀ op : Op, s.memRead s.pc ≠ m.byte op) →
    stepWith m s =
      .next { s with rs := .fault (.unknownInstruction (s.memRead s.pc) s.pc) }

/-- R47, R112, R117: a decoded instruction with a register operand above 7 faults with
`RegisterOutOfRange(opcode, pc, index)`, where index is operand 1 if that is bad and else operand
2, and nothing but the run state changes. The check, its fault and its order are the spec's
decisions D9 and D10. -/
def Obligations.BadOperandFaults : Prop :=
  ∀ (m : OpcodeMap) (s : State) (i : Instr), s.rs = .running → s.fetchInstr m = some i →
    (∀ b : Byte, i.regOperands.head? = some b → 7 < b.toNat →
      stepWith m s =
        .next { s with rs := .fault (.registerOutOfRange (m.byte i.op) s.pc b) }) ∧
    (∀ a b : Byte, i.regOperands = [a, b] → a.toNat ≤ 7 → 7 < b.toNat →
      stepWith m s =
        .next { s with rs := .fault (.registerOutOfRange (m.byte i.op) s.pc b) })

/-- R47: an operand byte of 0 to 7 names exactly the register of that number, and 8 to 255 names
none; the upper bits are not ignored (spec's decision D9). -/
def Obligations.RegisterOperandCheck : Prop :=
  ∀ b : Byte,
    (b.toNat ≤ 7 → ∃ r : RegName, regidx b = some r ∧ r.val = b.toNat ∧ b = regByte r) ∧
      (7 < b.toNat → regidx b = none)

/-- R65, R119: in a terminal state no step is taken and all state keeps its value, for ever (spec's
decision D13; that a step answers the same state is the model's form of it, log entry 3). -/
def Obligations.TerminalStatesAreFrozen : Prop :=
  ∀ (m : OpcodeMap) (s : State), s.rs.terminal = true →
    stepWith m s = .next s ∧ ∀ n : Nat, RunsTo m n s s

/-- Every step of every state answers a next state: no instruction, operand, address or datum
stops the model (R10, R31, R51: the decoder and the memory interface are total; faults are
recorded in `rs`, R118, log entry 6). That a terminal state answers itself is the model's choice of
R65's two forms (log entry 3). -/
def Obligations.EveryStepAnswersNext : Prop :=
  ∀ (m : OpcodeMap) (s : State), ∃ t, stepWith m s = .next t

/-- R22: reset enters Running; Halted is entered by HLT and nothing else; Fault is entered by an
unknown opcode or a bad register operand and nothing else (spec's decision D9); a terminal state is
left by no step (decision D13; the step there as the identity is log entry 3). -/
def Obligations.RunStateTransitions : Prop :=
  (∀ s : State, s.applyReset.rs = .running) ∧
  ∀ (m : OpcodeMap) (s t : State), stepWith m s = .next t →
    (s.rs = .running →
      (t.rs = .halted ↔ s.fetchInstr m = some .hlt) ∧
      ((∃ f, t.rs = .fault f) ↔
        (s.fetchInstr m = none ∨ ∃ i, s.fetchInstr m = some i ∧ i.wf = false)) ∧
      (t.rs = .running ↔ ∃ i, s.fetchInstr m = some i ∧ i.wf = true ∧ i ≠ .hlt)) ∧
    (s.rs ≠ .running → t = s)

/-- R118: faults are precise. A step that ends in a Fault from Running has changed nothing but
the run state (spec's decision D10). -/
def Obligations.FaultsArePrecise : Prop :=
  ∀ (m : OpcodeMap) (s t : State) (f : Fault), s.rs = .running → stepWith m s = .next t →
    t.rs = .fault f → t = { s with rs := .fault f } ∧
      (f.code = 1 ∨ f.code = 2)

/-- R65 to R67: the run of `n` steps is made of the steps the hardware takes, each from a Running
state: `n` of them, or fewer if a terminal state came first, and then it stays there (spec's
decision D13; that the model's own steps go on as the identity is log entry 3). Paused after any `a`
steps it is the same run, and nothing follows a pause in a terminal state. A run that has ended
stopped at an HLT, an unknown opcode or a bad register operand, whose step changed nothing but the
run state (spec's decisions D9 to D11). -/
def Obligations.SingleStepsMakeTheRun : Prop :=
  ∀ (m : OpcodeMap) (n : Nat) (s u : State),
    (RunsTo m n s u ↔
      ∃ k : Nat, k ≤ n ∧ StepsTaken m k s u ∧ (k = n ∨ u.rs.terminal = true)) ∧
    (∀ a : Nat, a ≤ n →
      (RunsTo m n s u ↔
        ∃ t, RunsTo m a s t ∧ RunsTo m (n - a) t u ∧ (t.rs.terminal = true → u = t))) ∧
    (s.rs = .running → RunsTo m n s u → u.rs.terminal = true →
      ∃ (k : Nat) (t : State), k < n ∧ StepsTaken m k s t ∧ t.rs = .running ∧
        stepWith m t = .next u ∧ StopsAt m t u)

/-- R66: the run of `n` steps that the claims speak of is the run of the machine behind the host's
interface, which has the default opcode values (PRESUMED, log entry 1). That `n` steps always answer
is the model's choice where a terminal state comes first: R66 ends the run there, and the model's
step goes on as the identity (log entry 3); a fault is answered as a next state (log entry 6). -/
def Obligations.CoreRunIsIteratedStep : Prop :=
  ∀ (n : Nat) (s : State),
    (∀ t : State, RunsTo Config.opcodes n s t ↔ Sys2Proof.core.run n s = .next t) ∧
      ∃ t : State, Sys2Proof.core.run n s = .next t

/-- R16: how every instruction leaves `pc`, and that a faulting step leaves it alone. `x[r1]` of
CALL is the register as the step leaves it (R96 reads it after SP's decrement). -/
def Obligations.ProgramCounterTable : Prop :=
  ∀ (m : OpcodeMap) (s t : State) (i : Instr), s.rs = .running → s.fetchInstr m = some i →
    stepWith m s = .next t →
    (i.wf = false → t.pc = s.pc) ∧
    (i.wf = true →
      match i with
      | .ldi _ _ => t.pc.toNat = (s.pc.toNat + 3) % 256
      | .mul _ _ => t.pc.toNat = (s.pc.toNat + 3) % 256
      | .cmp _ _ => t.pc.toNat = (s.pc.toNat + 3) % 256
      | .prn _ => t.pc.toNat = (s.pc.toNat + 2) % 256
      | .push _ => t.pc.toNat = (s.pc.toNat + 2) % 256
      | .pop _ => t.pc.toNat = (s.pc.toNat + 2) % 256
      | .call a => ∀ r : RegName, a = regByte r → t.pc = t.reg r
      | .jmp a => ∀ r : RegName, a = regByte r → t.pc = s.reg r
      | .ret => t.pc = s.memRead s.sp
      | .jeq a => ∀ r : RegName, a = regByte r →
          if s.flags.equal then t.pc = s.reg r else t.pc.toNat = (s.pc.toNat + 2) % 256
      | .jne a => ∀ r : RegName, a = regByte r →
          if s.flags.equal then t.pc.toNat = (s.pc.toNat + 2) % 256 else t.pc = s.reg r
      | .hlt => t.pc = s.pc)

/-! ### The instructions, one by one -/

/-- R85, LDI, whole: its encoding, its effect and frame for every register and immediate, and its
operand fault. -/
def Obligations.LdiLoadsImmediate : Prop :=
  ∀ (m : OpcodeMap) (s : State) (d : RegName) (op1 imm : Byte),
    encodeWith m (.ldi op1 imm) = [m.ldi, op1, imm] ∧
    (∃ t, exec (.ldi (regByte d) imm) s = .next t ∧
      t.reg d = imm ∧ RegsKept s t [d] ∧ t.pc.toNat = (s.pc.toNat + 3) % 256 ∧
      t.flags = s.flags ∧ t.rs = s.rs ∧ MemKept s t ∧ t.out = s.out) ∧
    (7 < op1.toNat → OperandFault (.ldi op1 imm) s op1)

/-- R86, PRN: one value appended to `out`, for every register (that the output is the list of
values is the spec's decision D12). -/
def Obligations.PrnEmitsRegister : Prop :=
  ∀ (m : OpcodeMap) (s : State) (r : RegName) (op1 : Byte),
    encodeWith m (.prn op1) = [m.prn, op1] ∧
    (∃ t, exec (.prn (regByte r)) s = .next t ∧
      t.out = s.out ++ [s.reg r] ∧ RegsKept s t [] ∧ t.pc.toNat = (s.pc.toNat + 2) % 256 ∧
      t.flags = s.flags ∧ t.rs = s.rs ∧ MemKept s t) ∧
    (7 < op1.toNat → OperandFault (.prn op1) s op1)

/-- R78, MUL, whole: the product modulo 256 in the first register, for every pair of registers,
with its frame and its operand faults, operand 1 first. -/
def Obligations.MulMultiplies : Prop :=
  ∀ (m : OpcodeMap) (s : State) (a b : RegName) (op1 op2 : Byte),
    encodeWith m (.mul op1 op2) = [m.mul, op1, op2] ∧
    (∃ t, exec (.mul (regByte a) (regByte b)) s = .next t ∧
      (t.reg a).toNat = ((s.reg a).toNat * (s.reg b).toNat) % 256 ∧ RegsKept s t [a] ∧
      t.pc.toNat = (s.pc.toNat + 3) % 256 ∧
      t.flags = s.flags ∧ t.rs = s.rs ∧ MemKept s t ∧ t.out = s.out) ∧
    (7 < op1.toNat → OperandFault (.mul op1 op2) s op1) ∧
    (op1.toNat ≤ 7 → 7 < op2.toNat → OperandFault (.mul op1 op2) s op2)

/-- R79, CMP, whole: all three flags by the unsigned comparison, for every pair of registers, with
its frame and its operand faults. -/
def Obligations.CmpSetsFlags : Prop :=
  ∀ (m : OpcodeMap) (s : State) (a b : RegName) (op1 op2 : Byte),
    encodeWith m (.cmp op1 op2) = [m.cmp, op1, op2] ∧
    (∃ t, exec (.cmp (regByte a) (regByte b)) s = .next t ∧
      (t.flags.less = true ↔ (s.reg a).toNat < (s.reg b).toNat) ∧
      (t.flags.greater = true ↔ (s.reg a).toNat > (s.reg b).toNat) ∧
      (t.flags.equal = true ↔ (s.reg a).toNat = (s.reg b).toNat) ∧
      RegsKept s t [] ∧ t.pc.toNat = (s.pc.toNat + 3) % 256 ∧
      t.rs = s.rs ∧ MemKept s t ∧ t.out = s.out) ∧
    (7 < op1.toNat → OperandFault (.cmp op1 op2) s op1) ∧
    (op1.toNat ≤ 7 → 7 < op2.toNat → OperandFault (.cmp op1 op2) s op2)

/-- R91, PUSH: SP minus 1 modulo 256 first, then the store at the new SP, `x[s]` read after the
decrement, so that `PUSH R7` stores the decremented SP (spec's decision D14). -/
def Obligations.PushStoresBelow : Prop :=
  ∀ (m : OpcodeMap) (s : State) (r : RegName) (op1 : Byte),
    encodeWith m (.push op1) = [m.push, op1] ∧
    (∃ t, exec (.push (regByte r)) s = .next t ∧
      (t.sp.toNat : Int) = ((s.sp.toNat : Int) - 1) % 256 ∧ t.sp = s.pushAddr ∧
      t.memRead s.pushAddr = (if r = 7 then s.pushAddr else s.reg r) ∧
      MemKeptBut s t s.pushAddr ∧ RegsKept s t [7] ∧
      t.pc.toNat = (s.pc.toNat + 2) % 256 ∧
      t.flags = s.flags ∧ t.rs = s.rs ∧ t.out = s.out) ∧
    (7 < op1.toNat → OperandFault (.push op1) s op1)

/-- R92, POP: the byte at the old SP goes to the register, SP plus 1 modulo 256 last, so that `POP
R7` leaves SP at the popped byte plus 1 (spec's decision D14); the cell keeps its content. -/
def Obligations.PopLoadsTop : Prop :=
  ∀ (m : OpcodeMap) (s : State) (d : RegName) (op1 : Byte),
    encodeWith m (.pop op1) = [m.pop, op1] ∧
    (∃ t, exec (.pop (regByte d)) s = .next t ∧
      (d ≠ 7 → t.reg d = s.memRead s.sp ∧ t.sp.toNat = (s.sp.toNat + 1) % 256) ∧
      (d = 7 → t.sp.toNat = ((s.memRead s.sp).toNat + 1) % 256) ∧
      RegsKept s t [d, 7] ∧ t.pc.toNat = (s.pc.toNat + 2) % 256 ∧
      t.flags = s.flags ∧ t.rs = s.rs ∧ MemKept s t ∧ t.out = s.out) ∧
    (7 < op1.toNat → OperandFault (.pop op1) s op1)

/-- R96, CALL: the return address `(pc + 2) mod 256` is pushed and `pc` is the register, read after
SP's decrement, so that `CALL R7` jumps to the decremented SP (spec's decision D14). -/
def Obligations.CallPushesReturnAddress : Prop :=
  ∀ (m : OpcodeMap) (s : State) (r : RegName) (op1 : Byte),
    encodeWith m (.call op1) = [m.call, op1] ∧
    (∃ t, exec (.call (regByte r)) s = .next t ∧
      (t.sp.toNat : Int) = ((s.sp.toNat : Int) - 1) % 256 ∧ t.sp = s.pushAddr ∧
      (t.memRead s.pushAddr).toNat = (s.pc.toNat + 2) % 256 ∧
      MemKeptBut s t s.pushAddr ∧ RegsKept s t [7] ∧
      t.pc = (if r = 7 then s.pushAddr else s.reg r) ∧
      t.flags = s.flags ∧ t.rs = s.rs ∧ t.out = s.out) ∧
    (7 < op1.toNat → OperandFault (.call op1) s op1)

/-- R97, RET, whole: `pc` is the byte at the old SP, SP plus 1 modulo 256; it has no operand and
never faults. -/
def Obligations.RetPopsIntoPc : Prop :=
  ∀ (m : OpcodeMap) (s : State),
    encodeWith m .ret = [m.ret] ∧
    ∃ t, exec .ret s = .next t ∧
      t.pc = s.memRead s.sp ∧ t.sp.toNat = (s.sp.toNat + 1) % 256 ∧ RegsKept s t [7] ∧
      t.flags = s.flags ∧ t.rs = s.rs ∧ MemKept s t ∧ t.out = s.out

/-- R98, JMP, whole: `pc` is the register and nothing else changes; a JMP to its own address
changes no state at all. -/
def Obligations.JmpSetsPc : Prop :=
  ∀ (m : OpcodeMap) (s : State) (r : RegName) (op1 : Byte),
    encodeWith m (.jmp op1) = [m.jmp, op1] ∧
    (∃ t, exec (.jmp (regByte r)) s = .next t ∧
      t.pc = s.reg r ∧ RegsKept s t [] ∧
      t.flags = s.flags ∧ t.rs = s.rs ∧ MemKept s t ∧ t.out = s.out ∧
      (s.reg r = s.pc → t = s)) ∧
    (7 < op1.toNat → OperandFault (.jmp op1) s op1)

/-- R99, JEQ, whole: taken exactly if `FL.E` is set, else past its two bytes; it reads no other
flag and writes none, and the bad operand faults whether or not the branch would be taken. -/
def Obligations.JeqBranchesOnEqual : Prop :=
  ∀ (m : OpcodeMap) (s : State) (r : RegName) (op1 : Byte),
    encodeWith m (.jeq op1) = [m.jeq, op1] ∧
    (∃ t, exec (.jeq (regByte r)) s = .next t ∧
      (s.flags.equal = true → t.pc = s.reg r) ∧
      (s.flags.equal = false → t.pc.toNat = (s.pc.toNat + 2) % 256) ∧ RegsKept s t [] ∧
      t.flags = s.flags ∧ t.rs = s.rs ∧ MemKept s t ∧ t.out = s.out) ∧
    (7 < op1.toNat → OperandFault (.jeq op1) s op1)

/-- R100, JNE, whole: taken exactly if `FL.E` is clear, else past its two bytes; with the same
flags JEQ and JNE go opposite ways. -/
def Obligations.JneBranchesOnNotEqual : Prop :=
  ∀ (m : OpcodeMap) (s : State) (r : RegName) (op1 : Byte),
    encodeWith m (.jne op1) = [m.jne, op1] ∧
    (∃ t u, exec (.jne (regByte r)) s = .next t ∧ exec (.jeq (regByte r)) s = .next u ∧
      (s.flags.equal = false → t.pc = s.reg r ∧ u.pc.toNat = (s.pc.toNat + 2) % 256) ∧
      (s.flags.equal = true → t.pc.toNat = (s.pc.toNat + 2) % 256 ∧ u.pc = s.reg r) ∧
      RegsKept s t [] ∧
      t.flags = s.flags ∧ t.rs = s.rs ∧ MemKept s t ∧ t.out = s.out) ∧
    (7 < op1.toNat → OperandFault (.jne op1) s op1)

/-- R105, HLT: the run state becomes Halted and nothing else changes, `pc` included (spec's
decision D11), so that no further step is taken (decision D13; the step there as the identity is log
entry 3). -/
def Obligations.HltHalts : Prop :=
  ∀ (m : OpcodeMap) (s : State),
    encodeWith m .hlt = [m.hlt] ∧
    exec .hlt s = .next { s with rs := .halted } ∧
    stepWith m { s with rs := .halted } = .next { s with rs := .halted }

/-! ### The ALU -/

/-- R70 to R73: ADD, SUB and MUL of the ALU compute the exact integer result modulo 256 (spec's
decision D1) into `x[a]` and touch nothing else, for every pair of registers, `a = b` included. -/
def Obligations.AluArithmeticWraps : Prop :=
  ∀ (s : State) (a b : RegName),
    (∃ t, alu .add a b s = .ok t ∧
      ((t.reg a).toNat : Int) = ((s.reg a).toNat + (s.reg b).toNat : Int) % 256 ∧
      RegsKept s t [a] ∧ { t with regs := s.regs } = s) ∧
    (∃ t, alu .sub a b s = .ok t ∧
      ((t.reg a).toNat : Int) = ((s.reg a).toNat - (s.reg b).toNat : Int) % 256 ∧
      RegsKept s t [a] ∧ { t with regs := s.regs } = s) ∧
    (∃ t, alu .mul a b s = .ok t ∧
      ((t.reg a).toNat : Int) = ((s.reg a).toNat * (s.reg b).toNat : Int) % 256 ∧
      RegsKept s t [a] ∧ { t with regs := s.regs } = s)

/-- R74, R113: DIV of the ALU stores the truncated quotient, and with a zero divisor raises
DivisionByZero whatever `x[a]` is (spec's decisions D7, D8). -/
def Obligations.AluDivTruncatesOrFaults : Prop :=
  ∀ (s : State) (a b : RegName),
    ((s.reg b).toNat ≠ 0 →
      ∃ t, alu .div a b s = .ok t ∧
        (t.reg a).toNat = (s.reg a).toNat / (s.reg b).toNat ∧
        RegsKept s t [a] ∧ { t with regs := s.regs } = s) ∧
    ((s.reg b).toNat = 0 → alu .div a b s = .error (.divisionByZero s.pc a b))

/-- R75, R21: CMP of the ALU writes the three flags of the unsigned comparison (spec's decision
D6), exactly one of them true, and touches nothing else; a register against itself is Equal. -/
def Obligations.AluCmpSetsExactlyOneFlag : Prop :=
  ∀ (s : State) (a b : RegName),
    ∃ t, alu .cmp a b s = .ok t ∧
      (t.flags = ⟨true, false, false⟩ ↔ (s.reg a).toNat < (s.reg b).toNat) ∧
      (t.flags = ⟨false, true, false⟩ ↔ (s.reg a).toNat > (s.reg b).toNat) ∧
      (t.flags = ⟨false, false, true⟩ ↔ (s.reg a).toNat = (s.reg b).toNat) ∧
      t.flags.exactlyOne = true ∧ (a = b → t.flags = ⟨false, false, true⟩) ∧
      { t with flags := s.flags } = s

/-! ### Whole-machine rules -/

/-- R20: between two CMP instructions FL keeps the value the earlier one wrote, across any number
of other instructions: a run in which no step executes a CMP leaves FL as it was. -/
def Obligations.FlagsKeptBetweenCompares : Prop :=
  ∀ (m : OpcodeMap) (n : Nat) (s t : State),
    (∀ (k : Nat) (u : State), k < n → RunsTo m k s u →
      ∀ a b : Byte, u.fetchInstr m ≠ some (.cmp a b)) →
    RunsTo m n s t → t.flags = s.flags

/-- R19: only CMP writes FL; only JEQ and JNE read it, and they read only `FL.E`: any other
instruction, and those two under flags with the same E, does the same whatever FL holds. -/
def Obligations.OnlyCmpWritesOnlyBranchesReadFlags : Prop :=
  ∀ (i : Instr) (s t : State), exec i s = .next t →
    ((∀ a b : Byte, i ≠ .cmp a b) → t.flags = s.flags) ∧
    (∀ f : Flags,
      ((∀ a : Byte, i ≠ .jeq a ∧ i ≠ .jne a) ∨ f.equal = s.flags.equal) →
      (∀ a b : Byte, i ≠ .cmp a b) →
        exec i { s with flags := f } = .next { t with flags := f })

/-- R21: FL is 000 only from reset until the first CMP: once exactly one flag is true, every step
keeps exactly one true. -/
def Obligations.FlagsNeverReturnToNone : Prop :=
  ∀ (m : OpcodeMap) (s t : State), s.flags.exactlyOne = true → stepWith m s = .next t →
    t.flags.exactlyOne = true

/-- R13: which instruction writes which register, the whole table: LDI and MUL operand 1, POP
operand 1 and SP, PUSH, CALL and RET SP, and no other instruction any; a faulting one none. -/
def Obligations.RegisterWriteTable : Prop :=
  ∀ (i : Instr) (s t : State) (q : RegName), exec i s = .next t → t.reg q ≠ s.reg q →
    match i with
    | .ldi a _ => a = regByte q
    | .mul a _ => a = regByte q
    | .pop a => a = regByte q ∨ q = 7
    | .push _ => q = 7
    | .call _ => q = 7
    | .ret => q = 7
    | .prn _ => False
    | .cmp _ _ => False
    | .jmp _ => False
    | .jeq _ => False
    | .jne _ => False
    | .hlt => False

/-- R24, R13: only PRN adds to `out`, one value a step, and `out` only grows: after any run the
output before is a prefix of the output after (spec's decision D12). -/
def Obligations.OutputOnlyGrows : Prop :=
  (∀ (i : Instr) (s t : State), exec i s = .next t →
    t.out = s.out ∨ ∃ r : RegName, i = .prn (regByte r) ∧ t.out = s.out ++ [s.reg r]) ∧
  ∀ (m : OpcodeMap) (n : Nat) (s t : State), RunsTo m n s t → s.out <+: t.out

/-- R32: the bytes a step changes are the ones its access list writes, the list has at most one
write, and every read comes before it; only PUSH and CALL have one, at SP minus 1. -/
def Obligations.MemoryPortTraffic : Prop :=
  ∀ (m : OpcodeMap) (s t : State), stepWith m s = .next t →
    (∀ a : Byte, t.memRead a ≠ s.memRead a → Access.write a ∈ stepAccesses m s) ∧
    (∀ a : Byte, Access.write a ∈ stepAccesses m s →
      a = s.pushAddr ∧ s.rs = .running ∧
      (∃ r : RegName, s.fetchInstr m = some (.push (regByte r)) ∨
        s.fetchInstr m = some (.call (regByte r))) ∧
      ∃ reads : List Byte, stepAccesses m s = reads.map Access.read ++ [Access.write a]) ∧
    (stepAccesses m s).length ≤ 3

/-- R32 as noninterference: a byte that a step's access list does not read can hold anything, and
the step does the same: the same registers, `pc`, flags, run state, output and accesses, and the
same memory but for that byte, which keeps its value unless the step writes it. -/
def Obligations.UnreadBytesDoNotMatter : Prop :=
  ∀ (m : OpcodeMap) (s t : State) (a v : Byte),
    Access.read a ∉ stepAccesses m s → stepWith m s = .next t →
    ∃ t', stepWith m (s.memWrite a v) = .next t' ∧
      t'.regs = t.regs ∧ t'.pc = t.pc ∧ t'.flags = t.flags ∧ t'.rs = t.rs ∧ t'.out = t.out ∧
      MemKeptBut t t' a ∧
      t'.memRead a = (if Access.write a ∈ stepAccesses m s then t.memRead a else v) ∧
      stepAccesses m (s.memWrite a v) = stepAccesses m s

/-- R31: memory. A read after a write to the same cell gives the byte written and every other cell
is unchanged, in any memory; every write keeps the canonical form, and canonical memories that
read alike are equal (the form is the model's own, log entry 5). -/
def Obligations.MemoryReadsLastWrite : Prop :=
  (∀ (s : State) (a b v : Byte),
    (s.memWrite a v).memRead a = v ∧ (b ≠ a → (s.memWrite a v).memRead b = s.memRead b) ∧
      (s.mem.wf = true → (s.memWrite a v).mem.wf = true)) ∧
  ∀ s t : State, s.mem.wf = true → t.mem.wf = true →
    (∀ a : Byte, s.memRead a = t.memRead a) → s.mem = t.mem

/-- R40: a byte a PUSH or a CALL stores is what the next fetch from that address reads, in the
very next step too, and the instruction completes as it was fetched even where it overwrites its
own bytes (spec's decision D26): no condition on where SP points. -/
def Obligations.StoresAreFetchedAtOnce : Prop :=
  ∀ (m : OpcodeMap) (s : State) (r : RegName), s.rs = .running →
    (s.fetchInstr m = some (.push (regByte r)) →
      ∃ t, stepWith m s = .next t ∧ t.rs = .running ∧
        (t.pc = s.pushAddr → t.fetchOpcode = (if r = 7 then s.pushAddr else s.reg r))) ∧
    (s.fetchInstr m = some (.call (regByte r)) →
      ∃ t, stepWith m s = .next t ∧ t.rs = .running ∧
        (t.pc = s.pushAddr → t.fetchOpcode = s.pc + 2))

/-- R93: a PUSH and the POP right after it restore the value and SP, for every SP, also into
another register, provided the PUSH did not overwrite the POP's two bytes. -/
def Obligations.PushThenPopRestores : Prop :=
  ∀ (m : OpcodeMap) (s : State) (r d : RegName), m.Distinct → s.rs = .running →
    r ≠ 7 → d ≠ 7 →
    s.memRead s.pc = m.push → s.memRead (s.pc + 1) = regByte r →
    s.memRead (s.pc + 2) = m.pop → s.memRead (s.pc + 3) = regByte d →
    s.pushAddr ≠ s.pc + 2 → s.pushAddr ≠ s.pc + 3 →
    ∃ t u, stepWith m s = .next t ∧ stepWith m t = .next u ∧
      u.reg d = s.reg r ∧ u.sp = s.sp ∧ RegsKept s u [d] ∧
      u.memRead s.pushAddr = s.reg r ∧ MemKeptBut s u s.pushAddr ∧
      u.pc = s.pc + 4 ∧ u.flags = s.flags ∧ u.rs = .running ∧ u.out = s.out

/-- R101: CALL at c with SP = p, then, after any balanced body, a RET with SP = p - 1 and that cell
unchanged since the CALL, returns to c + 2 with SP = p; CALL and RET pass all other registers and
the flags through. -/
def Obligations.CallThenRetReturns : Prop :=
  ∀ (s t u : State) (r : RegName), exec (.call (regByte r)) s = .next t →
    u.sp = s.pushAddr → u.memRead s.pushAddr = t.memRead s.pushAddr →
    ∃ v, exec .ret u = .next v ∧ v.pc.toNat = (s.pc.toNat + 2) % 256 ∧ v.sp = s.sp ∧
      RegsKept s t [7] ∧ t.flags = s.flags ∧ RegsKept u v [7] ∧ v.flags = u.flags

/-- R66, R98: a run need not end: a running machine whose next instruction is a JMP to its own
address is in the same state after any number of steps. -/
def Obligations.JumpToSelfRunsForEver : Prop :=
  ∀ (m : OpcodeMap) (s : State) (r : RegName) (n : Nat), s.rs = .running →
    s.fetchInstr m = some (.jmp (regByte r)) → s.reg r = s.pc →
      RunsTo m n s s ∧ SafeRun m n s ∧ ¬ HaltsCleanly m n s

/-- R110, R124: the fault codes, and what the host makes of the run state: exit code 0 on Halted,
some non-zero code on Fault, none while Running (spec's decisions D17, D20; the non-zero code is a
free value of Config). -/
def Obligations.FaultCodesAndExitCodes : Prop :=
  (∀ (opcode pc index : Byte) (a b : RegName),
    (Fault.unknownInstruction opcode pc).code = 1 ∧
      (Fault.registerOutOfRange opcode pc index).code = 2 ∧
      (Fault.divisionByZero pc a b).code = 3) ∧
  exitCode .running = none ∧ exitCode .halted = some 0 ∧
  (∀ f : Fault, ∃ n : Nat, exitCode (.fault f) = some n ∧ n ≠ 0) ∧
  ∀ s : State, s.results = (s.out, s.rs)
end

