-- ==== Sys2Proof/Laws/Decode.lean ====
section
/-! SUPPORT. Small lemmas of the opcode map, the decoder and the encoder. -/

namespace Sys2Proof

@[simp] theorem Op.mem_all (op : Op) : op ∈ Op.all := by cases op <;> decide

/-- The opcode a map gives a row is one of its twelve values. -/
theorem OpcodeMap.byte_mem (m : OpcodeMap) (op : Op) : m.byte op ∈ m.values := by
  cases op <;> simp [OpcodeMap.byte, OpcodeMap.values]

/-- The twelve values are the opcodes of the twelve rows. -/
theorem OpcodeMap.values_eq (m : OpcodeMap) : m.values = Op.all.map m.byte := rfl

/-- In a map of distinct values, two rows never share an opcode. -/
theorem OpcodeMap.byte_inj (m : OpcodeMap) (h : m.Distinct) {p q : Op}
    (e : m.byte p = m.byte q) : p = q :=
  List.inj_on_of_nodup_map (m.values_eq ▸ h) (Op.mem_all p) (Op.mem_all q) e

/-- An opcode byte that decodes is the opcode of the row it decodes to. -/
theorem decodeOpcode_some {m : OpcodeMap} {b : Byte} {op : Op} (h : decodeOpcode m b = some op) :
    m.byte op = b := by
  simpa using List.find?_some h

/-- Every row's opcode decodes to that row. -/
theorem decodeOpcode_byte (m : OpcodeMap) (h : m.Distinct) (op : Op) :
    decodeOpcode m (m.byte op) = some op := by
  cases hd : decodeOpcode m (m.byte op) with
  | none => simpa using List.find?_eq_none.mp hd op (Op.mem_all op)
  | some q => rw [m.byte_inj h (decodeOpcode_some hd)]

/-- The verdict "unknown" is exactly: none of the twelve values. -/
theorem decodeOpcode_none (m : OpcodeMap) (b : Byte) :
    decodeOpcode m b = none ↔ b ∉ m.values := by
  rw [OpcodeMap.values_eq]
  simp only [decodeOpcode, List.find?_eq_none, List.mem_map, not_exists, not_and, beq_iff_eq]

/-- A decoded instruction belongs to the row it was decoded as. -/
@[simp] theorem Op.toInstr_op (op : Op) (a b : Byte) : (op.toInstr a b).op = op := by
  cases op <;> rfl

/-- An instruction has the operand count of its row's format. -/
theorem Instr.operands_length (i : Instr) : i.operands.length + 1 = i.op.length := by
  cases i <;> rfl

/-- The length of an encoding is the length of the row, 1, 2 or 3 bytes. -/
theorem encodeWith_length (m : OpcodeMap) (i : Instr) :
    (encodeWith m i).length = i.op.length := by
  simp [encodeWith, Instr.operands_length]

/-- A register operand with no bad byte among them is a well-formed instruction, and conversely. -/
theorem Instr.firstBadOperand_none (i : Instr) : i.firstBadOperand = none ↔ i.wf = true := by
  simp [Instr.firstBadOperand, Instr.wf]

/-- The byte a bad operand is reported with is 8 or more. -/
theorem Instr.firstBadOperand_big {i : Instr} {b : Byte} (h : i.firstBadOperand = some b) :
    7 < b.toNat := by
  simpa [isRegIndex] using List.find?_some h

end Sys2Proof
end

