-- ==== Sys2Proof/Laws/State.lean ====
section
/-! SUPPORT. One lemma per field per update of the state, so that no proof unfolds an update. -/

namespace Sys2Proof.Machine

variable (s : State)

/-! ### memWrite -/

@[simp] theorem State.memWrite_regs (a v : Byte) : (s.memWrite a v).regs = s.regs := rfl
@[simp] theorem State.memWrite_pc (a v : Byte) : (s.memWrite a v).pc = s.pc := rfl
@[simp] theorem State.memWrite_flags (a v : Byte) : (s.memWrite a v).flags = s.flags := rfl
@[simp] theorem State.memWrite_rs (a v : Byte) : (s.memWrite a v).rs = s.rs := rfl
@[simp] theorem State.memWrite_mem (a v : Byte) : (s.memWrite a v).mem = Memory.write s.mem a.toNat v := rfl
@[simp] theorem State.memWrite_out (a v : Byte) : (s.memWrite a v).out = s.out := rfl
@[simp] theorem State.memWrite_reg (a v : Byte) (q : RegName) : (s.memWrite a v).reg q = s.reg q := rfl
@[simp] theorem State.memWrite_sp (a v : Byte) : (s.memWrite a v).sp = s.sp := rfl
@[simp] theorem State.memWrite_pushAddr (a v : Byte) : (s.memWrite a v).pushAddr = s.pushAddr := rfl

/-! ### setReg -/

@[simp] theorem State.setReg_regs (r : RegName) (v : Byte) : (s.setReg r v).regs = s.regs.set r v := rfl
@[simp] theorem State.setReg_pc (r : RegName) (v : Byte) : (s.setReg r v).pc = s.pc := rfl
@[simp] theorem State.setReg_flags (r : RegName) (v : Byte) : (s.setReg r v).flags = s.flags := rfl
@[simp] theorem State.setReg_rs (r : RegName) (v : Byte) : (s.setReg r v).rs = s.rs := rfl
@[simp] theorem State.setReg_mem (r : RegName) (v : Byte) : (s.setReg r v).mem = s.mem := rfl
@[simp] theorem State.setReg_out (r : RegName) (v : Byte) : (s.setReg r v).out = s.out := rfl
@[simp] theorem State.setReg_memRead (r : RegName) (v : Byte) (b : Byte) : (s.setReg r v).memRead b = s.memRead b := rfl

/-! ### setPc -/

@[simp] theorem State.setPc_regs (t : Byte) : (s.setPc t).regs = s.regs := rfl
@[simp] theorem State.setPc_pc (t : Byte) : (s.setPc t).pc = t := rfl
@[simp] theorem State.setPc_flags (t : Byte) : (s.setPc t).flags = s.flags := rfl
@[simp] theorem State.setPc_rs (t : Byte) : (s.setPc t).rs = s.rs := rfl
@[simp] theorem State.setPc_mem (t : Byte) : (s.setPc t).mem = s.mem := rfl
@[simp] theorem State.setPc_out (t : Byte) : (s.setPc t).out = s.out := rfl
@[simp] theorem State.setPc_reg (t : Byte) (q : RegName) : (s.setPc t).reg q = s.reg q := rfl
@[simp] theorem State.setPc_sp (t : Byte) : (s.setPc t).sp = s.sp := rfl
@[simp] theorem State.setPc_pushAddr (t : Byte) : (s.setPc t).pushAddr = s.pushAddr := rfl
@[simp] theorem State.setPc_memRead (t : Byte) (b : Byte) : (s.setPc t).memRead b = s.memRead b := rfl

/-! ### advance -/

@[simp] theorem State.advance_regs (n : Nat) : (s.advance n).regs = s.regs := rfl
@[simp] theorem State.advance_pc (n : Nat) : (s.advance n).pc = s.pc + BitVec.ofNat 8 n := rfl
@[simp] theorem State.advance_flags (n : Nat) : (s.advance n).flags = s.flags := rfl
@[simp] theorem State.advance_rs (n : Nat) : (s.advance n).rs = s.rs := rfl
@[simp] theorem State.advance_mem (n : Nat) : (s.advance n).mem = s.mem := rfl
@[simp] theorem State.advance_out (n : Nat) : (s.advance n).out = s.out := rfl
@[simp] theorem State.advance_reg (n : Nat) (q : RegName) : (s.advance n).reg q = s.reg q := rfl
@[simp] theorem State.advance_sp (n : Nat) : (s.advance n).sp = s.sp := rfl
@[simp] theorem State.advance_pushAddr (n : Nat) : (s.advance n).pushAddr = s.pushAddr := rfl
@[simp] theorem State.advance_memRead (n : Nat) (b : Byte) : (s.advance n).memRead b = s.memRead b := rfl

/-! ### setFlags -/

@[simp] theorem State.setFlags_regs (f : Flags) : (s.setFlags f).regs = s.regs := rfl
@[simp] theorem State.setFlags_pc (f : Flags) : (s.setFlags f).pc = s.pc := rfl
@[simp] theorem State.setFlags_flags (f : Flags) : (s.setFlags f).flags = f := rfl
@[simp] theorem State.setFlags_rs (f : Flags) : (s.setFlags f).rs = s.rs := rfl
@[simp] theorem State.setFlags_mem (f : Flags) : (s.setFlags f).mem = s.mem := rfl
@[simp] theorem State.setFlags_out (f : Flags) : (s.setFlags f).out = s.out := rfl
@[simp] theorem State.setFlags_reg (f : Flags) (q : RegName) : (s.setFlags f).reg q = s.reg q := rfl
@[simp] theorem State.setFlags_sp (f : Flags) : (s.setFlags f).sp = s.sp := rfl
@[simp] theorem State.setFlags_pushAddr (f : Flags) : (s.setFlags f).pushAddr = s.pushAddr := rfl
@[simp] theorem State.setFlags_memRead (f : Flags) (b : Byte) : (s.setFlags f).memRead b = s.memRead b := rfl

/-! ### emit -/

@[simp] theorem State.emit_regs (v : Byte) : (s.emit v).regs = s.regs := rfl
@[simp] theorem State.emit_pc (v : Byte) : (s.emit v).pc = s.pc := rfl
@[simp] theorem State.emit_flags (v : Byte) : (s.emit v).flags = s.flags := rfl
@[simp] theorem State.emit_rs (v : Byte) : (s.emit v).rs = s.rs := rfl
@[simp] theorem State.emit_mem (v : Byte) : (s.emit v).mem = s.mem := rfl
@[simp] theorem State.emit_out (v : Byte) : (s.emit v).out = s.out ++ [v] := rfl
@[simp] theorem State.emit_reg (v : Byte) (q : RegName) : (s.emit v).reg q = s.reg q := rfl
@[simp] theorem State.emit_sp (v : Byte) : (s.emit v).sp = s.sp := rfl
@[simp] theorem State.emit_pushAddr (v : Byte) : (s.emit v).pushAddr = s.pushAddr := rfl
@[simp] theorem State.emit_memRead (v : Byte) (b : Byte) : (s.emit v).memRead b = s.memRead b := rfl

/-! ### setRunState -/

@[simp] theorem State.setRunState_regs (r : RunState) : (s.setRunState r).regs = s.regs := rfl
@[simp] theorem State.setRunState_pc (r : RunState) : (s.setRunState r).pc = s.pc := rfl
@[simp] theorem State.setRunState_flags (r : RunState) : (s.setRunState r).flags = s.flags := rfl
@[simp] theorem State.setRunState_rs (r : RunState) : (s.setRunState r).rs = r := rfl
@[simp] theorem State.setRunState_mem (r : RunState) : (s.setRunState r).mem = s.mem := rfl
@[simp] theorem State.setRunState_out (r : RunState) : (s.setRunState r).out = s.out := rfl
@[simp] theorem State.setRunState_reg (r : RunState) (q : RegName) : (s.setRunState r).reg q = s.reg q := rfl
@[simp] theorem State.setRunState_sp (r : RunState) : (s.setRunState r).sp = s.sp := rfl
@[simp] theorem State.setRunState_pushAddr (r : RunState) : (s.setRunState r).pushAddr = s.pushAddr := rfl
@[simp] theorem State.setRunState_memRead (r : RunState) (b : Byte) : (s.setRunState r).memRead b = s.memRead b := rfl

/-! ### decSp -/

@[simp] theorem State.decSp_regs : s.decSp.regs = s.regs.set Config.spIndex s.pushAddr := rfl
@[simp] theorem State.decSp_pc : s.decSp.pc = s.pc := rfl
@[simp] theorem State.decSp_flags : s.decSp.flags = s.flags := rfl
@[simp] theorem State.decSp_rs : s.decSp.rs = s.rs := rfl
@[simp] theorem State.decSp_mem : s.decSp.mem = s.mem := rfl
@[simp] theorem State.decSp_out : s.decSp.out = s.out := rfl
@[simp] theorem State.decSp_memRead (b : Byte) : s.decSp.memRead b = s.memRead b := rfl

/-! ### incSp -/

@[simp] theorem State.incSp_regs : s.incSp.regs = s.regs.set Config.spIndex (s.sp + 1) := rfl
@[simp] theorem State.incSp_pc : s.incSp.pc = s.pc := rfl
@[simp] theorem State.incSp_flags : s.incSp.flags = s.flags := rfl
@[simp] theorem State.incSp_rs : s.incSp.rs = s.rs := rfl
@[simp] theorem State.incSp_mem : s.incSp.mem = s.mem := rfl
@[simp] theorem State.incSp_out : s.incSp.out = s.out := rfl
@[simp] theorem State.incSp_memRead (b : Byte) : s.incSp.memRead b = s.memRead b := rfl

/-! ### push -/

@[simp] theorem State.push_regs (v : Byte) : (s.push v).regs = s.regs.set Config.spIndex s.pushAddr := rfl
@[simp] theorem State.push_pc (v : Byte) : (s.push v).pc = s.pc := rfl
@[simp] theorem State.push_flags (v : Byte) : (s.push v).flags = s.flags := rfl
@[simp] theorem State.push_rs (v : Byte) : (s.push v).rs = s.rs := rfl
@[simp] theorem State.push_mem (v : Byte) : (s.push v).mem = Memory.write s.mem s.pushAddr.toNat v := rfl
@[simp] theorem State.push_out (v : Byte) : (s.push v).out = s.out := rfl

/-! ### Reading a register after a write -/

/-- Reading a register after a write gives the value written there, and the old one elsewhere. -/
theorem State.setReg_reg (r q : RegName) (v : Byte) :
    (s.setReg r v).reg q = if q = r then v else s.reg q := by
  simp only [State.reg, State.setReg, Fin.getElem_fin, Vector.getElem_set, Fin.ext_iff, eq_comm]

@[simp] theorem State.setReg_reg_same (r : RegName) (v : Byte) : (s.setReg r v).reg r = v := by
  simp [State.setReg_reg]

/-- A register other than the one written keeps its value. -/
theorem State.setReg_reg_other (r q : RegName) (v : Byte) (h : q ≠ r) :
    (s.setReg r v).reg q = s.reg q := by
  simp [State.setReg_reg, h]

@[simp] theorem State.decSp_sp : s.decSp.sp = s.pushAddr := State.setReg_reg_same _ _ _

@[simp] theorem State.incSp_sp : s.incSp.sp = s.sp + 1 := State.setReg_reg_same _ _ _

@[simp] theorem State.push_sp (v : Byte) : (s.push v).sp = s.pushAddr := State.decSp_sp s

/-- SP is the one register a decrement of SP writes. -/
theorem State.decSp_reg (q : RegName) : s.decSp.reg q = if q = 7 then s.pushAddr else s.reg q :=
  State.setReg_reg _ _ _ _

/-- SP is the one register an increment of SP writes. -/
theorem State.incSp_reg (q : RegName) : s.incSp.reg q = if q = 7 then s.sp + 1 else s.reg q :=
  State.setReg_reg _ _ _ _

/-- SP is the one register a push writes. -/
theorem State.push_reg (v : Byte) (q : RegName) :
    (s.push v).reg q = if q = 7 then s.pushAddr else s.reg q :=
  State.decSp_reg s q

/-- SP is register 7 (R12). -/
theorem State.sp_eq_reg : s.sp = s.reg 7 := rfl

/-- A store to memory does not touch what a push would push. -/
@[simp] theorem State.memWrite_decSp_reg (a v : Byte) (q : RegName) :
    (s.memWrite a v).decSp.reg q = s.decSp.reg q := rfl

/-! ### The reset state -/

@[simp] theorem State.reset_reg (q : RegName) : State.reset.reg q = 0 := by
  simp [State.reg, State.reset, Config.regReset]

@[simp] theorem State.reset_memRead (a : Byte) : State.reset.memRead a = 0 := rfl

end Sys2Proof.Machine
end

