-- ==== Sys2Proof/Laws/Memory.lean ====
section
/-! SUPPORT. The laws of memory: a read after a write, and the canonical form that every
operation keeps. -/

namespace Sys2Proof.Machine

/-! ### Reading after a write, in any memory, canonical or not -/

theorem Memory.read_erase (m : Memory) (a b : Nat) :
    Memory.read (Memory.erase m a) b = if b = a then Config.memReset else Memory.read m b := by
  induction m with
  | nil => simp [Memory.erase, Memory.read]
  | cons c rest ih =>
    obtain ⟨k, v⟩ := c
    simp only [Memory.erase] at ih
    by_cases hk : k = a <;> by_cases hb : k = b <;>
      simp_all [Memory.erase, Memory.read]

theorem Memory.read_insert (m : Memory) (a b : Nat) (v : Byte) (h : Memory.read m a = Config.memReset)
    (hno : ∀ c ∈ m, c.1 ≠ a) :
    Memory.read (Memory.insert m a v) b = if b = a then v else Memory.read m b := by
  induction m with
  | nil => simp [Memory.insert, Memory.read, eq_comm]
  | cons c rest ih =>
    obtain ⟨k, w⟩ := c
    have hk : k ≠ a := hno _ (List.mem_cons_self ..)
    unfold Memory.insert
    split
    · simp [Memory.read, eq_comm]
    · simp only [Memory.read, hk, if_false] at h
      rw [Memory.read, ih h (fun c hc => hno c (List.mem_cons_of_mem _ hc)), Memory.read]
      split <;> split <;> simp_all

theorem Memory.erase_no (m : Memory) (a : Nat) : ∀ c ∈ Memory.erase m a, c.1 ≠ a := by
  intro c hc
  simpa using (List.mem_filter.mp hc).2

/-- A read after a write: the value written at the same address, the old value at every other. -/
theorem Memory.read_write (m : Memory) (a b : Nat) (v : Byte) :
    Memory.read (Memory.write m a v) b = if b = a then v else Memory.read m b := by
  have hz : Memory.read (Memory.erase m a) a = Config.memReset := by
    simp [Memory.read_erase]
  unfold Memory.write
  split
  · rename_i hv
    rw [Memory.read_erase, hv]
  · rw [Memory.read_insert _ _ _ _ hz (Memory.erase_no m a), Memory.read_erase]
    split <;> simp_all

theorem Memory.read_write_same (m : Memory) (a : Nat) (v : Byte) :
    Memory.read (Memory.write m a v) a = v := by
  simp [Memory.read_write]

theorem Memory.read_write_other (m : Memory) (a b : Nat) (v : Byte) (h : b ≠ a) :
    Memory.read (Memory.write m a v) b = Memory.read m b := by
  simp [Memory.read_write, h]

/-- Reading a cell after a write to memory. -/
theorem State.memWrite_memRead (s : State) (a b v : Byte) :
    (s.memWrite a v).memRead b = if b = a then v else s.memRead b := by
  simp [State.memRead, Memory.read_write, BitVec.toNat_inj]

@[simp] theorem State.memWrite_memRead_same (s : State) (a v : Byte) :
    (s.memWrite a v).memRead a = v := by
  simp [State.memWrite_memRead]

theorem State.memWrite_memRead_other (s : State) (a b v : Byte) (h : b ≠ a) :
    (s.memWrite a v).memRead b = s.memRead b := by
  simp [State.memWrite_memRead, h]

/-- The one cell a push writes is the one at `pushAddr`. -/
theorem State.push_memRead (s : State) (v b : Byte) :
    (s.push v).memRead b = if b = s.pushAddr then v else s.memRead b := by
  simp [State.push, State.memWrite_memRead]

/-! ### The canonical form -/

/-- The canonical form, in words. -/
theorem Memory.wf_iff (m : Memory) :
    m.wf = true ↔ m.Pairwise (fun c d => c.1 < d.1) ∧
      ∀ c ∈ m, c.1 < Config.memSize ∧ c.2 ≠ Config.memReset := by
  simp [Memory.wf]

theorem Memory.mem_insert (m : Memory) (a : Nat) (v : Byte) (c : Host.Cell) :
    c ∈ Memory.insert m a v ↔ c = (a, v) ∨ c ∈ m := by
  induction m with
  | nil => simp [Memory.insert]
  | cons d rest ih =>
    obtain ⟨k, w⟩ := d
    unfold Memory.insert
    split
    · simp
    · simp only [List.mem_cons, ih]; tauto

theorem Memory.insert_sorted (m : Memory) (a : Nat) (v : Byte)
    (hm : m.Pairwise (fun c d => c.1 < d.1)) (hno : ∀ c ∈ m, c.1 ≠ a) :
    (Memory.insert m a v).Pairwise (fun c d => c.1 < d.1) := by
  induction m with
  | nil => simp [Memory.insert]
  | cons d rest ih =>
    obtain ⟨k, w⟩ := d
    have hk : k ≠ a := hno _ (List.mem_cons_self ..)
    obtain ⟨h1, h2⟩ := List.pairwise_cons.mp hm
    unfold Memory.insert
    split
    · refine List.pairwise_cons.mpr ⟨?_, hm⟩
      intro c hc
      rcases List.mem_cons.mp hc with rfl | hc
      · assumption
      · have := h1 c hc; dsimp only at *; omega
    · refine List.pairwise_cons.mpr ⟨?_, ih h2 (fun c hc => hno c (List.mem_cons_of_mem _ hc))⟩
      intro c hc
      rcases (Memory.mem_insert _ _ _ _).mp hc with rfl | hc
      · dsimp only; omega
      · exact h1 c hc

/-- A write to one of the 256 cells keeps the canonical form. -/
theorem Memory.write_wf (m : Memory) (a : Nat) (v : Byte) (ha : a < Config.memSize)
    (h : m.wf = true) : (Memory.write m a v).wf = true := by
  obtain ⟨hs, hc⟩ := (Memory.wf_iff m).mp h
  have hse : (Memory.erase m a).Pairwise (fun c d => c.1 < d.1) := hs.filter _
  have hce : ∀ c ∈ Memory.erase m a, c.1 < Config.memSize ∧ c.2 ≠ Config.memReset :=
    fun c hm => hc c (List.mem_of_mem_filter hm)
  unfold Memory.write
  split
  · exact (Memory.wf_iff _).mpr ⟨hse, hce⟩
  · refine (Memory.wf_iff _).mpr ⟨Memory.insert_sorted _ _ _ hse (Memory.erase_no m a), ?_⟩
    intro c hm
    rcases (Memory.mem_insert _ _ _ _).mp hm with rfl | hm
    · exact ⟨ha, by assumption⟩
    · exact hce c hm

/-- An 8-bit address is one of the 256 cells, so every store keeps the canonical form. -/
theorem State.memWrite_wf (s : State) (a v : Byte) (h : s.mem.wf = true) :
    (s.memWrite a v).mem.wf = true :=
  Memory.write_wf _ _ _ a.isLt h

/-- A push keeps the canonical form. -/
theorem State.push_wf (s : State) (v : Byte) (h : s.mem.wf = true) :
    (s.push v).mem.wf = true :=
  State.memWrite_wf s.decSp _ _ h

/-- Reset memory is in canonical form. -/
theorem State.reset_mem_wf : State.reset.mem.wf = true := by decide

/-- Two canonical memories that read alike at every cell are the same list. -/
theorem Memory.ext_of_read (m n : Memory) (hm : m.wf = true) (hn : n.wf = true)
    (h : ∀ a, Memory.read m a = Memory.read n a) : m = n := by
  have key : ∀ k : Memory, k.wf = true → ∀ c : Host.Cell,
      c ∈ k ↔ Memory.read k c.1 = c.2 ∧ c.2 ≠ Config.memReset := by
    intro k hk
    induction k with
    | nil =>
      intro c
      simp only [List.not_mem_nil, Memory.read, false_iff, not_and, not_not]
      exact fun e => e.symm
    | cons d rest ih =>
      obtain ⟨hs, hc⟩ := (Memory.wf_iff _).mp hk
      obtain ⟨h1, h2⟩ := List.pairwise_cons.mp hs
      have hr : Memory.wf rest = true :=
        (Memory.wf_iff _).mpr ⟨h2, fun c hm => hc c (List.mem_cons_of_mem _ hm)⟩
      have hd := (hc d (List.mem_cons_self ..)).2
      intro c
      rw [List.mem_cons, ih hr c, Memory.read]
      constructor
      · rintro (rfl | ⟨h3, h4⟩)
        · simpa using hd
        · have := h1 c ((ih hr c).mpr ⟨h3, h4⟩)
          rw [if_neg (by omega)]
          exact ⟨h3, h4⟩
      · rintro ⟨h3, h4⟩
        split at h3
        · left; ext
          · simp_all
          · simp_all
        · exact .inr ⟨h3, h4⟩
  have hmem : ∀ c, c ∈ m ↔ c ∈ n := fun c => by rw [key m hm, key n hn, h]
  obtain ⟨sm, _⟩ := (Memory.wf_iff _).mp hm
  obtain ⟨sn, _⟩ := (Memory.wf_iff _).mp hn
  have nd : ∀ k : Memory, k.Pairwise (fun c d => c.1 < d.1) → k.Nodup :=
    fun k hk => hk.imp (fun hlt e => by subst e; omega)
  have hp : m.Perm n := (List.perm_ext_iff_of_nodup (nd m sm) (nd n sn)).mpr hmem
  exact hp.eq_of_pairwise (fun a b _ _ h1 h2 => by omega) sm sn

end Sys2Proof.Machine
end

