-- ==== Sys2Proof/Laws/Operands.lean ====
section
/-! SUPPORT. Everything the operand check can do. -/

namespace Sys2Proof.Machine

@[simp] theorem regByte_toNat (r : RegName) : (regByte r).toNat = r.val := by
  simp [regByte]; omega

/-- Different registers have different operand bytes. -/
theorem regByte_inj {a b : RegName} (h : regByte a = regByte b) : a = b :=
  Fin.ext (by simpa using congrArg BitVec.toNat h)

/-- The operand byte of a register names that register. -/
@[simp] theorem regidx_regByte (r : RegName) : regidx (regByte r) = some r := by
  simp [regidx]

/-- A byte of 8 or more names no register. -/
theorem regidx_big (b : Byte) (h : 7 < b.toNat) : regidx b = none := by
  simp [regidx]; omega

/-- A byte of 7 or less is the operand byte of exactly the register it names. -/
theorem eq_regByte (b : Byte) (h : b.toNat ≤ 7) : ∃ r : RegName, b = regByte r :=
  ⟨⟨b.toNat, by omega⟩, BitVec.eq_of_toNat_eq (by simp)⟩

/-- The check of a good operand goes on with its register. -/
@[simp] theorem withReg_regByte (r : RegName) (s : State)
    (k : RegName → Host.Outcome State Fault Refusal) : withReg (regByte r) s k = k r := by
  simp [withReg]

/-- The check of a bad operand faults whatever would have followed. -/
theorem withReg_big (b : Byte) (s : State) (k : RegName → Host.Outcome State Fault Refusal)
    (h : 7 < b.toNat) : withReg b s k = raiseOutOfRange s b := by
  simp [withReg, regidx_big b h]

/-- Everything the operand check can do. -/
theorem withReg_cases (b : Byte) (s : State)
    (k : RegName → Host.Outcome State Fault Refusal) :
    (∃ r, b = regByte r ∧ withReg b s k = k r) ∨
      (7 < b.toNat ∧ withReg b s k = raiseOutOfRange s b) := by
  by_cases h : b.toNat ≤ 7
  · obtain ⟨r, rfl⟩ := eq_regByte b h
    exact .inl ⟨r, rfl, by simp⟩
  · exact .inr ⟨by omega, withReg_big b s k (by omega)⟩

@[simp] theorem isRegIndex_regByte (r : RegName) : isRegIndex (regByte r) = true := by
  simp [isRegIndex]; omega

theorem isRegIndex_big (b : Byte) (h : 7 < b.toNat) : isRegIndex b = false := by
  simp [isRegIndex]; omega

end Sys2Proof.Machine
end

