-- ==== Sys2Proof/Laws/Alu.lean ====
section
/-! SUPPORT. Everything the ALU and the flag computations can do. -/

namespace Sys2Proof.Machine

/-- A comparison writes exactly one flag true. -/
theorem compareFlags_exactlyOne (x y : Byte) : (compareFlags x y).exactlyOne = true := by
  simp only [compareFlags, Flags.exactlyOne, Flags.legal]
  rcases Nat.lt_trichotomy x.toNat y.toNat with h | h | h
  · simp [h, Nat.not_lt_of_gt h, Nat.ne_of_lt h]
  · simp [h]
  · simp [h, Nat.not_lt_of_gt h, Nat.ne_of_gt h]

/-- Exactly one true flag is one of the legal values. -/
theorem Flags.legal_of_exactlyOne (f : Flags) (h : f.exactlyOne = true) : f.legal = true := by
  simp only [Flags.exactlyOne, Bool.and_eq_true] at h
  exact h.1

/-- Everything the ALU can do: an arithmetic result in `x[a]`, the three flags, or the division
fault. -/
theorem alu_cases (op : AluOp) (a b : RegName) (s : State) :
    (∃ v, op ≠ .cmp ∧ alu op a b s = .ok (s.setReg a v)) ∨
      (op = .cmp ∧ alu op a b s = .ok (s.setFlags (compareFlags (s.reg a) (s.reg b)))) ∨
      (op = .div ∧ s.reg b = 0 ∧ alu op a b s = .error (.divisionByZero s.pc a b)) := by
  cases op with
  | add => exact .inl ⟨_, by decide, rfl⟩
  | sub => exact .inl ⟨_, by decide, rfl⟩
  | mul => exact .inl ⟨_, by decide, rfl⟩
  | div =>
    by_cases h : s.reg b = 0
    · exact .inr (.inr ⟨rfl, h, by rw [alu, if_pos h]⟩)
    · exact .inl ⟨s.reg a / s.reg b, by decide, by rw [alu, if_neg h]⟩
  | cmp => exact .inr (.inl ⟨rfl, rfl⟩)

/-- The MUL instruction's use of the ALU. -/
@[simp] theorem aluStep_mul (a b : RegName) (s : State) :
    aluStep .mul a b s = .next ((s.setReg a (s.reg a * s.reg b)).advance 3) := rfl

/-- The CMP instruction's use of the ALU. -/
@[simp] theorem aluStep_cmp (a b : RegName) (s : State) :
    aluStep .cmp a b s = .next ((s.setFlags (compareFlags (s.reg a) (s.reg b))).advance 3) := rfl

end Sys2Proof.Machine
end

