-- ==== Sys2Proof/Laws/PerInstr.lean ====
section
/-! SUPPORT. Statements about every instruction as syntax, one lemma per constructor. -/

namespace Sys2Proof.Laws.EncodingShape

/-- An encoding is the row's opcode byte followed by the operand bytes, as many bytes as the row's
length says (R45, R50, R53), and its register operands are among the operand bytes (R46). -/
def Statement (i : Instr) : Prop :=
  ∀ m : OpcodeMap, (encodeWith m i).head? = some (m.byte i.op) ∧
    (encodeWith m i).length = i.op.length ∧ (∀ b ∈ i.regOperands, b ∈ (encodeWith m i).tail)

theorem ldi (a b : Byte) : Statement (.ldi a b) := fun m =>
  ⟨rfl, encodeWith_length m _, by simp [encodeWith, Instr.regOperands, Instr.operands]⟩
theorem prn (a : Byte) : Statement (.prn a) := fun m => ⟨rfl, encodeWith_length m _, fun _ h => h⟩
theorem mul (a b : Byte) : Statement (.mul a b) := fun m => ⟨rfl, encodeWith_length m _, fun _ h => h⟩
theorem cmp (a b : Byte) : Statement (.cmp a b) := fun m => ⟨rfl, encodeWith_length m _, fun _ h => h⟩
theorem push (a : Byte) : Statement (.push a) := fun m => ⟨rfl, encodeWith_length m _, fun _ h => h⟩
theorem pop (a : Byte) : Statement (.pop a) := fun m => ⟨rfl, encodeWith_length m _, fun _ h => h⟩
theorem call (a : Byte) : Statement (.call a) := fun m => ⟨rfl, encodeWith_length m _, fun _ h => h⟩
theorem ret : Statement .ret := fun m => ⟨rfl, encodeWith_length m _, fun _ h => h⟩
theorem jmp (a : Byte) : Statement (.jmp a) := fun m => ⟨rfl, encodeWith_length m _, fun _ h => h⟩
theorem jeq (a : Byte) : Statement (.jeq a) := fun m => ⟨rfl, encodeWith_length m _, fun _ h => h⟩
theorem jne (a : Byte) : Statement (.jne a) := fun m => ⟨rfl, encodeWith_length m _, fun _ h => h⟩
theorem hlt : Statement .hlt := fun m => ⟨rfl, encodeWith_length m _, fun _ h => h⟩

end Sys2Proof.Laws.EncodingShape
end

