-- ==== Sys2Proof/Laws/Step.lean ====
section
/-! SUPPORT. Everything fetch, decode and a step can do. -/

namespace Sys2Proof.Machine

@[simp] theorem State.raise_eq (s : State) (f : Fault) :
    s.raise f = .next (s.setRunState (.fault f)) := rfl

@[simp] theorem State.frozen_eq (s : State) : s.frozen = .next s := rfl

/-- A decoded instruction's opcode byte is the byte at `pc`. -/
theorem State.fetchInstr_some {m : OpcodeMap} {s : State} {i : Instr}
    (h : s.fetchInstr m = some i) :
    decodeOpcode m s.fetchOpcode = some i.op ∧ m.byte i.op = s.fetchOpcode := by
  unfold State.fetchInstr at h
  split at h
  · cases h
  · rename_i op hd
    cases h
    simp [hd, decodeOpcode_some hd]

/-- No instruction is decoded exactly where the byte at `pc` is unknown. -/
theorem State.fetchInstr_none {m : OpcodeMap} {s : State} :
    s.fetchInstr m = none ↔ decodeOpcode m s.fetchOpcode = none := by
  unfold State.fetchInstr
  cases decodeOpcode m s.fetchOpcode <;> simp

/-- The fetch reads `pc` and memory and nothing else. -/
theorem State.fetchInstr_congr {m : OpcodeMap} {s t : State} (hp : t.pc = s.pc)
    (hm : t.mem = s.mem) : t.fetchInstr m = s.fetchInstr m := by
  simp only [State.fetchInstr, State.fetchOpcode, State.memRead, State.fetchOp1, State.fetchOp2,
    State.operandAddr1, State.operandAddr2, hp, hm]

/-- The instruction fetched is the one the byte decoder reads off the three bytes at `pc`. -/
theorem decodeWith_window (m : OpcodeMap) (s : State) :
    (match decodeWith m s.window with
      | .ok (i, _) => some i
      | .error _ => none) = s.fetchInstr m := by
  simp only [decodeWith, State.window, State.fetchInstr, State.fetchOpcode]
  cases decodeOpcode m (s.memRead s.pc) with
  | none => rfl
  | some op => cases op <;> rfl

/-- A step of a running machine executes the instruction it fetched. -/
theorem stepWith_exec {m : OpcodeMap} {s : State} {i : Instr} (hr : s.rs = .running)
    (h : s.fetchInstr m = some i) : stepWith m s = exec i s := by
  simp [stepWith, hr, h]

/-- A step of a running machine on an unknown opcode faults. -/
theorem stepWith_unknown {m : OpcodeMap} {s : State} (hr : s.rs = .running)
    (h : s.fetchInstr m = none) :
    stepWith m s = .next (s.setRunState (.fault (.unknownInstruction s.fetchOpcode s.pc))) := by
  simp [stepWith, hr, h, raiseUnknown]

/-- A stopped machine takes no step. -/
theorem stepWith_stopped {m : OpcodeMap} {s : State} (hr : s.rs ≠ .running) :
    stepWith m s = .next s := by
  unfold stepWith
  cases h : s.rs <;> simp_all

/-- Everything a step can do. -/
theorem stepWith_cases (m : OpcodeMap) (s : State) :
    (s.rs ≠ .running ∧ stepWith m s = .next s) ∨
      (s.rs = .running ∧ s.fetchInstr m = none ∧
        stepWith m s =
          .next (s.setRunState (.fault (.unknownInstruction s.fetchOpcode s.pc)))) ∨
      (∃ i, s.rs = .running ∧ s.fetchInstr m = some i ∧ stepWith m s = exec i s) := by
  by_cases hr : s.rs = .running
  · cases h : s.fetchInstr m with
    | none => exact .inr (.inl ⟨hr, rfl, stepWith_unknown hr h⟩)
    | some i => exact .inr (.inr ⟨i, hr, rfl, stepWith_exec hr h⟩)
  · exact .inl ⟨hr, stepWith_stopped hr⟩

/-! ### The meaning of each instruction on operand bytes that name registers -/

theorem exec_ldi (s : State) (d : RegName) (imm : Byte) :
    exec (.ldi (regByte d) imm) s = .next ((s.setReg d imm).advance 3) := by
  simp [exec, execLdi]

theorem exec_prn (s : State) (r : RegName) :
    exec (.prn (regByte r)) s = .next ((s.emit (s.reg r)).advance 2) := by
  simp [exec, execPrn]

theorem exec_mul (s : State) (a b : RegName) :
    exec (.mul (regByte a) (regByte b)) s = .next ((s.setReg a (s.reg a * s.reg b)).advance 3) := by
  simp [exec, execMul]

theorem exec_cmp (s : State) (a b : RegName) :
    exec (.cmp (regByte a) (regByte b)) s = .next ((s.setFlags (compareFlags (s.reg a) (s.reg b))).advance 3) := by
  simp [exec, execCmp]

theorem exec_push (s : State) (r : RegName) :
    exec (.push (regByte r)) s = .next ((s.push (s.decSp.reg r)).advance 2) := by
  simp [exec, execPush]

theorem exec_pop (s : State) (d : RegName) :
    exec (.pop (regByte d)) s = .next ((s.setReg d s.top).incSp.advance 2) := by
  simp [exec, execPop]

theorem exec_call (s : State) (t : RegName) :
    exec (.call (regByte t)) s = .next ((s.push (s.pc + 2)).setPc (s.decSp.reg t)) := by
  simp [exec, execCall]

theorem exec_jmp (s : State) (t : RegName) :
    exec (.jmp (regByte t)) s = .next (s.setPc (s.reg t)) := by
  simp [exec, execJmp]

theorem exec_jeq (s : State) (t : RegName) :
    exec (.jeq (regByte t)) s = .next (branchIf s.flags.eqHolds t s) := by
  simp [exec, execJeq]

theorem exec_jne (s : State) (t : RegName) :
    exec (.jne (regByte t)) s = .next (branchIf s.flags.neHolds t s) := by
  simp [exec, execJne]

theorem exec_ret (s : State) : exec .ret s = .next ((s.setPc s.top).incSp) := rfl

theorem exec_hlt (s : State) : exec .hlt s = .next (s.setRunState .halted) := rfl

/-! ### A conditional branch writes `pc` and nothing else -/

theorem branchIf_pc (b : Bool) (t : RegName) (s : State) :
    (branchIf b t s).pc = if b then s.reg t else s.pc + 2 := by unfold branchIf; split <;> rfl

@[simp] theorem branchIf_regs (b : Bool) (t : RegName) (s : State) :
    (branchIf b t s).regs = s.regs := by unfold branchIf; split <;> rfl
@[simp] theorem branchIf_reg (b : Bool) (t : RegName) (s : State) (q : RegName) :
    (branchIf b t s).reg q = s.reg q := by unfold branchIf; split <;> rfl
@[simp] theorem branchIf_flags (b : Bool) (t : RegName) (s : State) :
    (branchIf b t s).flags = s.flags := by unfold branchIf; split <;> rfl
@[simp] theorem branchIf_rs (b : Bool) (t : RegName) (s : State) :
    (branchIf b t s).rs = s.rs := by unfold branchIf; split <;> rfl
@[simp] theorem branchIf_mem (b : Bool) (t : RegName) (s : State) :
    (branchIf b t s).mem = s.mem := by unfold branchIf; split <;> rfl
@[simp] theorem branchIf_memRead (b : Bool) (t : RegName) (s : State) (a : Byte) :
    (branchIf b t s).memRead a = s.memRead a := by unfold branchIf; split <;> rfl
@[simp] theorem branchIf_out (b : Bool) (t : RegName) (s : State) :
    (branchIf b t s).out = s.out := by unfold branchIf; split <;> rfl

/-- The state an instruction with good operands leads to, as its rule writes it. -/
inductive Effect (s : State) : Instr → State → Prop
  | ldi (d : RegName) (imm : Byte) :
      Effect s (.ldi (regByte d) imm) ((s.setReg d imm).advance 3)
  | prn (r : RegName) : Effect s (.prn (regByte r)) ((s.emit (s.reg r)).advance 2)
  | mul (a b : RegName) :
      Effect s (.mul (regByte a) (regByte b)) ((s.setReg a (s.reg a * s.reg b)).advance 3)
  | cmp (a b : RegName) :
      Effect s (.cmp (regByte a) (regByte b))
        ((s.setFlags (compareFlags (s.reg a) (s.reg b))).advance 3)
  | push (r : RegName) : Effect s (.push (regByte r)) ((s.push (s.decSp.reg r)).advance 2)
  | pop (d : RegName) : Effect s (.pop (regByte d)) ((s.setReg d s.top).incSp.advance 2)
  | call (t : RegName) :
      Effect s (.call (regByte t)) ((s.push (s.pc + 2)).setPc (s.decSp.reg t))
  | ret : Effect s .ret ((s.setPc s.top).incSp)
  | jmp (t : RegName) : Effect s (.jmp (regByte t)) (s.setPc (s.reg t))
  | jeq (t : RegName) : Effect s (.jeq (regByte t)) (branchIf s.flags.eqHolds t s)
  | jne (t : RegName) : Effect s (.jne (regByte t)) (branchIf s.flags.neHolds t s)
  | hlt : Effect s .hlt (s.setRunState .halted)

/-- Everything `exec` can do: the effect of the instruction, or the operand fault on the first
bad operand with nothing else changed. -/
theorem exec_cases (i : Instr) (s : State) :
    (i.firstBadOperand = none ∧ ∃ t, Effect s i t ∧ exec i s = .next t) ∨
      (∃ b, i.firstBadOperand = some b ∧
        exec i s = .next (s.setRunState (.fault (.registerOutOfRange (s.memRead s.pc) s.pc b)))) := by
  have byte : ∀ b : Byte, (∃ r, b = regByte r) ∨ 7 < b.toNat := fun b =>
    (Nat.lt_or_ge 7 b.toNat).symm.imp_left (eq_regByte b)
  cases i with
  | ldi a imm =>
    rcases byte a with ⟨r, rfl⟩ | h
    · exact .inl ⟨by simp [Instr.firstBadOperand, Instr.regOperands], _, .ldi r imm,
        exec_ldi s r imm⟩
    · exact .inr ⟨a, by simp [Instr.firstBadOperand, Instr.regOperands, isRegIndex_big _ h],
        by simp [exec, execLdi, withReg_big _ _ _ h, raiseOutOfRange]⟩
  | prn a =>
    rcases byte a with ⟨r, rfl⟩ | h
    · exact .inl ⟨by simp [Instr.firstBadOperand, Instr.regOperands], _, .prn r,
        exec_prn s r⟩
    · exact .inr ⟨a, by simp [Instr.firstBadOperand, Instr.regOperands, isRegIndex_big _ h],
        by simp [exec, execPrn, withReg_big _ _ _ h, raiseOutOfRange]⟩
  | mul a b =>
    rcases byte a with ⟨r, rfl⟩ | h
    · rcases byte b with ⟨q, rfl⟩ | h
      · exact .inl ⟨by simp [Instr.firstBadOperand, Instr.regOperands], _, .mul r q,
          exec_mul s r q⟩
      · exact .inr ⟨b, by simp [Instr.firstBadOperand, Instr.regOperands, isRegIndex_big _ h],
          by simp [exec, execMul, withReg_big _ _ _ h, raiseOutOfRange]⟩
    · exact .inr ⟨a, by simp [Instr.firstBadOperand, Instr.regOperands, isRegIndex_big _ h],
        by simp [exec, execMul, withReg_big _ _ _ h, raiseOutOfRange]⟩
  | cmp a b =>
    rcases byte a with ⟨r, rfl⟩ | h
    · rcases byte b with ⟨q, rfl⟩ | h
      · exact .inl ⟨by simp [Instr.firstBadOperand, Instr.regOperands], _, .cmp r q,
          exec_cmp s r q⟩
      · exact .inr ⟨b, by simp [Instr.firstBadOperand, Instr.regOperands, isRegIndex_big _ h],
          by simp [exec, execCmp, withReg_big _ _ _ h, raiseOutOfRange]⟩
    · exact .inr ⟨a, by simp [Instr.firstBadOperand, Instr.regOperands, isRegIndex_big _ h],
        by simp [exec, execCmp, withReg_big _ _ _ h, raiseOutOfRange]⟩
  | push a =>
    rcases byte a with ⟨r, rfl⟩ | h
    · exact .inl ⟨by simp [Instr.firstBadOperand, Instr.regOperands], _, .push r,
        exec_push s r⟩
    · exact .inr ⟨a, by simp [Instr.firstBadOperand, Instr.regOperands, isRegIndex_big _ h],
        by simp [exec, execPush, withReg_big _ _ _ h, raiseOutOfRange]⟩
  | pop a =>
    rcases byte a with ⟨r, rfl⟩ | h
    · exact .inl ⟨by simp [Instr.firstBadOperand, Instr.regOperands], _, .pop r,
        exec_pop s r⟩
    · exact .inr ⟨a, by simp [Instr.firstBadOperand, Instr.regOperands, isRegIndex_big _ h],
        by simp [exec, execPop, withReg_big _ _ _ h, raiseOutOfRange]⟩
  | call a =>
    rcases byte a with ⟨r, rfl⟩ | h
    · exact .inl ⟨by simp [Instr.firstBadOperand, Instr.regOperands], _, .call r,
        exec_call s r⟩
    · exact .inr ⟨a, by simp [Instr.firstBadOperand, Instr.regOperands, isRegIndex_big _ h],
        by simp [exec, execCall, withReg_big _ _ _ h, raiseOutOfRange]⟩
  | ret => exact .inl ⟨rfl, _, .ret, rfl⟩
  | jmp a =>
    rcases byte a with ⟨r, rfl⟩ | h
    · exact .inl ⟨by simp [Instr.firstBadOperand, Instr.regOperands], _, .jmp r,
        exec_jmp s r⟩
    · exact .inr ⟨a, by simp [Instr.firstBadOperand, Instr.regOperands, isRegIndex_big _ h],
        by simp [exec, execJmp, withReg_big _ _ _ h, raiseOutOfRange]⟩
  | jeq a =>
    rcases byte a with ⟨r, rfl⟩ | h
    · exact .inl ⟨by simp [Instr.firstBadOperand, Instr.regOperands], _, .jeq r,
        exec_jeq s r⟩
    · exact .inr ⟨a, by simp [Instr.firstBadOperand, Instr.regOperands, isRegIndex_big _ h],
        by simp [exec, execJeq, withReg_big _ _ _ h, raiseOutOfRange]⟩
  | jne a =>
    rcases byte a with ⟨r, rfl⟩ | h
    · exact .inl ⟨by simp [Instr.firstBadOperand, Instr.regOperands], _, .jne r,
        exec_jne s r⟩
    · exact .inr ⟨a, by simp [Instr.firstBadOperand, Instr.regOperands, isRegIndex_big _ h],
        by simp [exec, execJne, withReg_big _ _ _ h, raiseOutOfRange]⟩
  | hlt => exact .inl ⟨rfl, _, .hlt, rfl⟩

end Sys2Proof.Machine
end

