-- ==== Sys2Proof/Laws/Run.lean ====
section
/-! SUPPORT. Runs of many steps, with the one induction over a run. -/

namespace Sys2Proof.Machine

@[simp] theorem runsTo_zero (m : OpcodeMap) (s t : State) : RunsTo m 0 s t ↔ s = t := Iff.rfl

/-- A run of one step more is a first step and the run from there. -/
theorem runsTo_succ (m : OpcodeMap) (n : Nat) (s u : State) :
    RunsTo m (n + 1) s u ↔ ∃ t, stepWith m s = .next t ∧ RunsTo m n t u := Iff.rfl

/-- What every step keeps, every run keeps. -/
theorem runsTo_keeps {m : OpcodeMap} {P : State → Prop}
    (hstep : ∀ s t, P s → stepWith m s = .next t → P t) :
    ∀ (n : Nat) (s t : State), P s → RunsTo m n s t → P t := by
  intro n
  induction n with
  | zero =>
    intro s t hs h
    cases h
    exact hs
  | succ n ih =>
    rintro s u hs ⟨t, ht, hu⟩
    exact ih t u (hstep s t hs ht) hu

/-- What every step relates reflexively and transitively, every run relates. -/
theorem runsTo_related {m : OpcodeMap} {R : State → State → Prop} (hrefl : ∀ s, R s s)
    (htrans : ∀ s t u, R s t → R t u → R s u) (hstep : ∀ s t, stepWith m s = .next t → R s t) :
    ∀ (n : Nat) (s t : State), RunsTo m n s t → R s t := fun n s t h =>
  runsTo_keeps (P := R s) (fun u v hu hv => htrans s u v hu (hstep u v hv)) n s t (hrefl s) h

@[simp] theorem stepsTaken_zero (m : OpcodeMap) (s t : State) : StepsTaken m 0 s t ↔ s = t :=
  Iff.rfl

/-- One taken step more is a first step from a Running state and the steps taken from there. -/
theorem stepsTaken_succ (m : OpcodeMap) (k : Nat) (s u : State) :
    StepsTaken m (k + 1) s u ↔
      s.rs = .running ∧ ∃ t, stepWith m s = .next t ∧ StepsTaken m k t u := Iff.rfl

/-- The steps taken are a run of the model. -/
theorem StepsTaken.runsTo {m : OpcodeMap} :
    ∀ {k : Nat} {s t : State}, StepsTaken m k s t → RunsTo m k s t := by
  intro k
  induction k with
  | zero => exact fun h => h
  | succ k ih =>
    rintro s u ⟨-, t, ht, hu⟩
    exact ⟨t, ht, ih hu⟩

/-- One step of the machine behind the host's interface. -/
theorem core_run_succ {n : Nat} {s t : State} (h : step s = .next t) :
    Sys2Proof.core.run (n + 1) s = Sys2Proof.core.run n t := by
  have hs : Sys2Proof.core.step s = .next t := h
  simp only [Host.Core.run, hs]

/-- The terminal run states are those that are not Running (R22). -/
theorem RunState.terminal_iff (r : RunState) : r.terminal = true ↔ r ≠ .running := by
  cases r <;> simp [RunState.terminal]

end Sys2Proof.Machine
end

