-- ==== Sys2Proof/Tests/Slice0.lean ====
section
/-! SUPPORT. Tests and witnesses. Expected values come from spec/95_test_vectors.md (the vector's
id stands in each comment) and spec/30_encoding.md, never from the model. -/

namespace Sys2Proof.Tests

open Sys2Proof.Machine

/-- The reset state with bytes placed at `pc`: the "before" state of spec/95's vectors. -/
def at' (pc : Byte) (bytes : List Byte) : State := (State.reset.placeBytes pc bytes).setPc pc

/-- The state one step leads to, or the same state where it answers none. -/
def after (s : State) : State :=
  match step s with
  | .next t => t
  | .fault _ => s
  | .refused _ => s

/-- The result of an ALU operation as far as a vector names it. -/
def aluResult (op : AluOp) (x y : Byte) : Except Fault Byte :=
  match alu op 0 1 ((State.reset.setReg 0 x).setReg 1 y) with
  | .ok t => .ok (t.reg 0)
  | .error f => .error f

/-! ### WellFormed refuses an ill-formed term, one for each check -/

theorem test_wf_ldi : (Instr.ldi 8 0).wf = false ∧ (Instr.ldi 7 255).wf = true := by decide
theorem test_wf_prn : (Instr.prn 255).wf = false ∧ (Instr.prn 7).wf = true := by decide
theorem test_wf_mul_op1 : (Instr.mul 8 0).wf = false ∧ (Instr.mul 7 7).wf = true := by decide
theorem test_wf_mul_op2 : (Instr.mul 0 8).wf = false := by decide
theorem test_wf_cmp_op1 : (Instr.cmp 8 0).wf = false ∧ (Instr.cmp 7 7).wf = true := by decide
theorem test_wf_cmp_op2 : (Instr.cmp 0 8).wf = false := by decide
theorem test_wf_push : (Instr.push 8).wf = false ∧ (Instr.push 7).wf = true := by decide
theorem test_wf_pop : (Instr.pop 200).wf = false ∧ (Instr.pop 7).wf = true := by decide
theorem test_wf_call : (Instr.call 8).wf = false ∧ (Instr.call 7).wf = true := by decide
theorem test_wf_jmp : (Instr.jmp 16).wf = false ∧ (Instr.jmp 7).wf = true := by decide
theorem test_wf_jeq : (Instr.jeq 9).wf = false ∧ (Instr.jeq 7).wf = true := by decide
theorem test_wf_jne : (Instr.jne 128).wf = false ∧ (Instr.jne 7).wf = true := by decide

/-! ### Words written out from R49 and R50's tables decode to their instruction -/

theorem test_decode_ldi : decode [0b10000010, 0b00000011, 0b11110000] = .ok (.ldi 3 0xF0, []) := rfl
theorem test_decode_prn : decode [0b01000111, 0b00000110] = .ok (.prn 6, []) := rfl
theorem test_decode_mul : decode [0b10100010, 0b00000001, 0b00000010] = .ok (.mul 1 2, []) := rfl
theorem test_decode_cmp : decode [0b10100111, 0b00000100, 0b00000101] = .ok (.cmp 4 5, []) := rfl
theorem test_decode_push : decode [0b01000101, 0b00000111] = .ok (.push 7, []) := rfl
theorem test_decode_pop : decode [0b01000110, 0b00000010] = .ok (.pop 2, []) := rfl
theorem test_decode_call : decode [0b01010000, 0b00000001] = .ok (.call 1, []) := rfl
theorem test_decode_ret : decode [0b00010001, 0b11111111] = .ok (.ret, [0b11111111]) := rfl
theorem test_decode_jmp : decode [0b01010100, 0b00000011] = .ok (.jmp 3, []) := rfl
theorem test_decode_jeq : decode [0b01010101, 0b00000100] = .ok (.jeq 4, []) := rfl
theorem test_decode_jne : decode [0b01010110, 0b00000101] = .ok (.jne 5, []) := rfl
theorem test_decode_hlt : decode [0b00000001] = .ok (.hlt, []) := rfl
/-- R52: the LS-8 bytes of NOP, ADD, SUB and DIV are unknown here. -/
theorem test_decode_unknown :
    [0x00, 0xA0, 0xA1, 0xA3].all (fun b => (decodeOpcode Config.opcodes b).isNone) = true := by
  decide
theorem test_decode_truncated : decode [0x82, 0x00] = .error (.truncated .ldi) := rfl
theorem test_decode_empty : decode [] = .error .noBytes := rfl
/-- The table's numbering: bit 0 is the least significant bit of the first byte. -/
theorem test_table_word : decodeTableWord 24 0x0905A2 = some (.mul 5 9) := by decide
theorem test_table_word_short : decodeTableWord 8 0xFF0082 = some (.ldi 0 0) := by decide
theorem test_default_opcodes_distinct : Config.opcodes.Distinct := by decide
/-- R54: the syntax of scenario A's first and third instructions. -/
theorem test_assembly :
    (Instr.ldi 0 8).assembly = "LDI R0,8" ∧ (Instr.mul 0 1).assembly = "MUL R0,R1" ∧
      Instr.hlt.assembly = "HLT" := by decide

/-! ### Single steps of spec/95 part 2 -/

/-- V5b: the operands wrap around the top of memory. -/
theorem test_ldi_wraps :
    (after (at' 254 [0x82, 0x00, 0x09])).reg 0 = 9 ∧
      (after (at' 254 [0x82, 0x00, 0x09])).pc = 1 := by decide
/-- V4 -/
theorem test_ldi_bad_register :
    (after (at' 0 [0x82, 0x08, 0x01])).rs = .fault (.registerOutOfRange 0x82 0 8) := by decide
/-- V8b -/
theorem test_prn :
    (after ((at' 255 [0x47, 0x01]).setReg 1 3)).out = [3] ∧
      (after ((at' 255 [0x47, 0x01]).setReg 1 3)).pc = 1 := by decide
/-- V8 -/
theorem test_prn_bad_register :
    (after (at' 0 [0x47, 0xFF])).out = [] ∧
      (after (at' 0 [0x47, 0xFF])).rs = .fault (.registerOutOfRange 0x47 0 255) := by decide
/-- V11 -/
theorem test_mul_wraps :
    (after (((at' 0 [0xA2, 0x01, 0x02]).setReg 1 255).setReg 2 255)).reg 1 = 1 := by decide
/-- V16: both operands bad, operand 1 is reported. -/
theorem test_mul_reports_first :
    (after (at' 0 [0xA2, 0x09, 0x0A])).rs = .fault (.registerOutOfRange 0xA2 0 9) := by decide
/-- V20: unsigned. -/
theorem test_cmp_unsigned :
    (after (((at' 0 [0xA7, 0x00, 0x01]).setReg 0 128).setReg 1 127)).flags =
      ⟨false, true, false⟩ := by decide
/-- V22: an old flag is cleared. -/
theorem test_cmp_clears :
    (after (((at' 0 [0xA7, 0x04, 0x04]).setReg 4 77).setFlags ⟨false, true, false⟩)).flags =
      ⟨false, false, true⟩ := by decide
/-- V26: `PUSH R7` stores the decremented SP. -/
theorem test_push_sp :
    (after (at' 0 [0x45, 0x07])).reg 7 = 255 ∧
      (after (at' 0 [0x45, 0x07])).mem = [(0, 0x45), (1, 0x07), (255, 255)] := by decide
/-- V28: it overwrites its own opcode byte and completes. -/
theorem test_push_over_itself :
    (after (((at' 4 [0x45, 0x01]).setReg 1 1).setReg 7 5)).mem = [(4, 1), (5, 1)] ∧
      (after (((at' 4 [0x45, 0x01]).setReg 1 1).setReg 7 5)).pc = 6 := by decide
/-- V31: nothing pushed, so the program's first byte. -/
theorem test_pop_unbalanced :
    (after (at' 0 [0x46, 0x00])).reg 0 = 70 ∧ (after (at' 0 [0x46, 0x00])).reg 7 = 1 := by decide
/-- V32: `POP R7` leaves the popped byte plus 1. -/
theorem test_pop_sp :
    (after (((at' 2 [0x46, 0x07]).setReg 7 144).memWrite 144 32)).reg 7 = 33 := by decide
/-- V37: the return address wraps to 0, which leaves the canonical list. -/
theorem test_call_wraps :
    (after ((((at' 254 [0x50, 0x01]).setReg 1 40).setReg 7 128).memWrite 127 85)).mem =
        [(254, 0x50), (255, 0x01)] ∧
      (after ((((at' 254 [0x50, 0x01]).setReg 1 40).setReg 7 128).memWrite 127 85)).pc = 40 := by
  decide
/-- V39: `CALL R7` jumps to the decremented SP. -/
theorem test_call_sp :
    (after ((at' 8 [0x50, 0x07]).setReg 7 96)).pc = 95 ∧
      (after ((at' 8 [0x50, 0x07]).setReg 7 96)).memRead 95 = 10 := by decide
/-- V42 -/
theorem test_ret :
    (after (((at' 16 [0x11]).setReg 7 255).memWrite 255 10)).pc = 10 ∧
      (after (((at' 16 [0x11]).setReg 7 255).memWrite 255 10)).reg 7 = 0 := by decide
/-- V44b: the stack cell is the RET opcode itself. -/
theorem test_ret_to_own_byte : (after ((at' 5 [0x11]).setReg 7 5)).pc = 17 := by decide
/-- V47 -/
theorem test_jmp : (after ((at' 20 [0x54, 0x07]).setReg 7 255)).pc = 255 := by decide
/-- V48 -/
theorem test_jmp_bad_register :
    (after (at' 20 [0x54, 0x10])).rs = .fault (.registerOutOfRange 0x54 20 16) := by decide
/-- V49 -/
theorem test_jeq_taken :
    (after (((at' 9 [0x55, 0x02]).setReg 2 30).setFlags ⟨false, false, true⟩)).pc = 30 := by decide
/-- V52 -/
theorem test_jeq_not_taken_wraps :
    (after (((at' 255 [0x55, 0x02]).setReg 2 30).setFlags ⟨false, true, false⟩)).pc = 1 := by decide
/-- V56 -/
theorem test_jne_not_taken :
    (after (((at' 18 [0x56, 0x03]).setReg 3 12).setFlags ⟨false, false, true⟩)).pc = 20 := by decide
/-- V57: the reset flags. -/
theorem test_jne_taken : (after ((at' 18 [0x56, 0x03]).setReg 3 12)).pc = 12 := by decide
/-- V60 -/
theorem test_hlt :
    (after (at' 255 [0x01])).rs = .halted ∧ (after (at' 255 [0x01])).pc = 255 := by decide
/-- UA0: LS-8's ADD is unknown and changes nothing but the run state. -/
theorem test_unknown :
    after ((at' 33 [0xA0, 0x07, 0x07]).setReg 7 9) =
      ((at' 33 [0xA0, 0x07, 0x07]).setReg 7 9).setRunState
        (.fault (.unknownInstruction 0xA0 33)) := by decide
/-- V61 -/
theorem test_halted_takes_no_step :
    after ((at' 0 [0x82, 0x00, 0x09]).setRunState .halted) =
      (at' 0 [0x82, 0x00, 0x09]).setRunState .halted := by decide
/-- A2, A6, A9, A15 -/
theorem test_alu_add : aluResult .add 200 100 = .ok 44 := rfl
theorem test_alu_sub : aluResult .sub 3 5 = .ok 254 := rfl
theorem test_alu_div : aluResult .div 7 2 = .ok 3 := rfl
theorem test_alu_div_zero : aluResult .div 0 0 = .error (.divisionByZero 0 0 1) := rfl
/-- R21: FL is shown as `L G E`, L as bit 2. -/
theorem test_flag_bits : (Flags.mk true false false).bits = 0b100 ∧ Flags.reset.bits = 0 := by decide
/-- The memory port's traffic of R32's rows for PUSH, LDI and an unknown opcode. -/
theorem test_accesses :
    stepAccesses Config.opcodes (at' 8 [0x45, 0x00]) = [.read 8, .read 9, .write 255] ∧
      stepAccesses Config.opcodes (at' 254 [0x82, 0x00]) = [.read 254, .read 255, .read 0] ∧
      stepAccesses Config.opcodes (at' 3 [0xA0]) = [.read 3] := by decide

/-! ### Witnesses: states and operands that meet the hypotheses of each statement -/

theorem witness_StepKeepsInv :
    Inv Config.opcodes (at' 8 [0x45, 0x00]) ∧
      stepWith Config.opcodes (at' 8 [0x45, 0x00]) = .next (after (at' 8 [0x45, 0x00])) :=
  ⟨⟨by decide, by decide, trivial⟩, rfl⟩

theorem witness_LaunchedRunsKeepInv :
    launch [0x01] = .next (at' 0 [0x01]) ∧ RunsTo Config.opcodes 1 (at' 0 [0x01]) (after (at' 0 [0x01])) :=
  ⟨rfl, _, rfl, rfl⟩

theorem witness_LaunchPlacesImage :
    (List.replicate 256 (0x01 : Byte)).length ≤ 256 ∧
      256 < (List.replicate 257 (0x01 : Byte)).length := by
  simp only [List.length_replicate]; decide

theorem witness_DecodeOfEncode : Config.opcodes.Distinct := by decide

theorem witness_EncodeOfDecode :
    decodeWith Config.opcodes [0x82, 0x00, 0x08, 0x01] = .ok (.ldi 0 8, [0x01]) := rfl

theorem witness_OpcodeTableIsClosed :
    Config.opcodes.Distinct ∧ State.reset.rs = .running ∧
      decodeOpcode Config.opcodes (State.reset.memRead State.reset.pc) = none := by decide

theorem witness_StoredWordIsTheNextInstruction :
    decodeTableWord 16 0x0747 = some (.prn 7) := by decide

theorem witness_StepRunsDecodedInstruction :
    (at' 254 [0x82, 0x00, 0x09]).rs = .running ∧
      decodeWith Config.opcodes
        [(at' 254 [0x82, 0x00, 0x09]).memRead 254, (at' 254 [0x82, 0x00, 0x09]).memRead 255,
          (at' 254 [0x82, 0x00, 0x09]).memRead 0] = .ok (.ldi 0 9, []) :=
  ⟨rfl, rfl⟩

theorem witness_UnknownOpcodeFaults :
    (at' 33 [0xA0]).rs = .running ∧
      ∀ op ∈ Op.all, (at' 33 [0xA0]).memRead 33 ≠ Config.opcodes.byte op := by decide

/-- Operand 1 at the boundary 8, and operand 2 at 8 with operand 1 at the boundary 7. -/
theorem witness_BadOperandFaults :
    (at' 0 [0x47, 0x08]).fetchInstr Config.opcodes = some (.prn 8) ∧
      (Instr.prn 8).regOperands.head? = some 8 ∧ 7 < (8 : Byte).toNat ∧
      (at' 0 [0xA2, 0x07, 0x08]).fetchInstr Config.opcodes = some (.mul 7 8) ∧
      (Instr.mul 7 8).regOperands = [7, 8] ∧ (7 : Byte).toNat ≤ 7 := by decide

theorem witness_RegisterOperandCheck : (7 : Byte).toNat ≤ 7 ∧ 7 < (8 : Byte).toNat := by decide

theorem witness_TerminalStatesAreFrozen :
    (State.reset.setRunState .halted).rs.terminal = true ∧
      (State.reset.setRunState (.fault (.unknownInstruction 0 0))).rs.terminal = true := by decide

theorem witness_RunStateTransitions :
    stepWith Config.opcodes (at' 0 [0x01]) = .next ((at' 0 [0x01]).setRunState .halted) ∧
      (at' 0 [0x01]).rs = .running ∧
      stepWith Config.opcodes (State.reset.setRunState .halted) =
        .next (State.reset.setRunState .halted) ∧
      (State.reset.setRunState .halted).rs ≠ .running :=
  ⟨rfl, rfl, rfl, by decide⟩

theorem witness_FaultsArePrecise :
    State.reset.rs = .running ∧
      stepWith Config.opcodes State.reset =
        .next (State.reset.setRunState (.fault (.unknownInstruction 0 0))) :=
  ⟨rfl, rfl⟩

/-- A run of two steps that ends at its first, on an HLT; its pause after one step is terminal. -/
theorem witness_SingleStepsMakeTheRun :
    (at' 0 [0x01]).rs = .running ∧
      RunsTo Config.opcodes 2 (at' 0 [0x01]) ((at' 0 [0x01]).setRunState .halted) ∧
      ((at' 0 [0x01]).setRunState .halted).rs.terminal = true ∧
      StepsTaken Config.opcodes 1 (at' 0 [0x01]) ((at' 0 [0x01]).setRunState .halted) :=
  ⟨rfl, ⟨_, rfl, _, rfl, rfl⟩, rfl, rfl, _, rfl, rfl⟩

/-- One instruction that passes the operand check, and one that does not. -/
theorem witness_ProgramCounterTable :
    (at' 8 [0x50, 0x07]).rs = .running ∧
      (at' 8 [0x50, 0x07]).fetchInstr Config.opcodes = some (.call 7) ∧
      stepWith Config.opcodes (at' 8 [0x50, 0x07]) = .next (after (at' 8 [0x50, 0x07])) ∧
      (Instr.call 7).wf = true ∧ (7 : Byte) = regByte 7 ∧
      (at' 8 [0x50, 0x08]).fetchInstr Config.opcodes = some (.call 8) ∧
      (Instr.call 8).wf = false :=
  ⟨rfl, by decide, rfl, by decide, by decide, by decide, by decide⟩

/-- The operand fault clause of LDI, PRN, MUL, CMP, PUSH, POP, CALL, JMP, JEQ and JNE, at the
boundary. -/
theorem witness_LdiLoadsImmediate : 7 < (8 : Byte).toNat := by decide
theorem witness_PrnEmitsRegister : 7 < (8 : Byte).toNat := by decide
theorem witness_MulMultiplies : 7 < (8 : Byte).toNat ∧ (7 : Byte).toNat ≤ 7 := by decide
theorem witness_CmpSetsFlags : 7 < (8 : Byte).toNat ∧ (7 : Byte).toNat ≤ 7 := by decide
theorem witness_PushStoresBelow : 7 < (8 : Byte).toNat := by decide
theorem witness_PopLoadsTop : 7 < (8 : Byte).toNat ∧ (6 : RegName) ≠ 7 ∧ (7 : RegName) = 7 := by
  decide
theorem witness_CallPushesReturnAddress : 7 < (8 : Byte).toNat := by decide
theorem witness_JmpSetsPc :
    7 < (8 : Byte).toNat ∧ ((at' 20 [0x54, 0x00]).setReg 0 20).reg 0 =
      ((at' 20 [0x54, 0x00]).setReg 0 20).pc := by decide
theorem witness_JeqBranchesOnEqual :
    7 < (8 : Byte).toNat ∧ (State.reset.setFlags ⟨false, false, true⟩).flags.equal = true ∧
      State.reset.flags.equal = false := by decide
theorem witness_JneBranchesOnNotEqual :
    7 < (8 : Byte).toNat ∧ (State.reset.setFlags ⟨false, false, true⟩).flags.equal = true ∧
      State.reset.flags.equal = false := by decide

theorem witness_AluDivTruncatesOrFaults :
    ((State.reset.setReg 1 1).reg 1).toNat ≠ 0 ∧ (State.reset.reg 1).toNat = 0 := by decide

theorem witness_AluCmpSetsExactlyOneFlag : (3 : RegName) = 3 := rfl

theorem witness_FlagsKeptBetweenCompares :
    (∀ (k : Nat) (u : State), k < 1 → RunsTo Config.opcodes k (at' 0 [0x82, 0x00, 0x09]) u →
      ∀ a b : Byte, u.fetchInstr Config.opcodes ≠ some (.cmp a b)) ∧
    RunsTo Config.opcodes 1 (at' 0 [0x82, 0x00, 0x09]) (after (at' 0 [0x82, 0x00, 0x09])) := by
  refine ⟨?_, _, rfl, rfl⟩
  intro k u hk hu a b h
  obtain rfl : k = 0 := by omega
  obtain rfl := (runsTo_zero _ _ _).mp hu
  have e : (at' 0 [0x82, 0x00, 0x09]).fetchInstr Config.opcodes = some (.ldi 0 9) := by decide
  rw [e] at h
  cases h

theorem witness_OnlyCmpWritesOnlyBranchesReadFlags :
    exec (.jeq 2) State.reset = .next (State.reset.advance 2) ∧
      (∀ a b : Byte, Instr.jeq 2 ≠ .cmp a b) ∧
      (⟨true, false, false⟩ : Flags).equal = State.reset.flags.equal ∧
      exec (.ldi 2 1) State.reset = .next ((State.reset.setReg 2 1).advance 3) ∧
      (∀ a : Byte, Instr.ldi 2 1 ≠ .jeq a ∧ Instr.ldi 2 1 ≠ .jne a) :=
  ⟨rfl, by simp, rfl, rfl, by simp⟩

theorem witness_FlagsNeverReturnToNone :
    (State.reset.setFlags ⟨true, false, false⟩).flags.exactlyOne = true ∧
      stepWith Config.opcodes ((at' 0 [0x56, 0x03]).setFlags ⟨true, false, false⟩) =
        .next (after ((at' 0 [0x56, 0x03]).setFlags ⟨true, false, false⟩)) :=
  ⟨by decide, rfl⟩

theorem witness_RegisterWriteTable :
    exec (.pop 3) ((at' 0 [0x46, 0x03]).setReg 7 1) =
        .next (after ((at' 0 [0x46, 0x03]).setReg 7 1)) ∧
      (after ((at' 0 [0x46, 0x03]).setReg 7 1)).reg 3 ≠ ((at' 0 [0x46, 0x03]).setReg 7 1).reg 3 ∧
      (after ((at' 0 [0x46, 0x03]).setReg 7 1)).reg 7 ≠ ((at' 0 [0x46, 0x03]).setReg 7 1).reg 7 :=
  ⟨rfl, by decide, by decide⟩

theorem witness_OutputOnlyGrows :
    exec (.prn 1) (at' 0 [0x47, 0x01]) = .next (after (at' 0 [0x47, 0x01])) ∧
      RunsTo Config.opcodes 1 (at' 0 [0x47, 0x01]) (after (at' 0 [0x47, 0x01])) :=
  ⟨rfl, _, rfl, rfl⟩

theorem witness_MemoryPortTraffic :
    stepWith Config.opcodes (at' 8 [0x45, 0x07]) = .next (after (at' 8 [0x45, 0x07])) ∧
      (after (at' 8 [0x45, 0x07])).memRead 255 ≠ (at' 8 [0x45, 0x07]).memRead 255 ∧
      Access.write 255 ∈ stepAccesses Config.opcodes (at' 8 [0x45, 0x07]) :=
  ⟨rfl, by decide, by decide⟩

/-- The byte a PUSH stores to is one it does not read. -/
theorem witness_UnreadBytesDoNotMatter :
    Access.read 255 ∉ stepAccesses Config.opcodes (at' 8 [0x45, 0x07]) ∧
      stepWith Config.opcodes (at' 8 [0x45, 0x07]) = .next (after (at' 8 [0x45, 0x07])) :=
  ⟨by decide, rfl⟩

theorem witness_MemoryReadsLastWrite :
    (0 : Byte) ≠ 255 ∧ (at' 8 [0x45, 0x07]).mem.wf = true ∧ State.reset.mem.wf = true ∧
      ∀ a : Byte, State.reset.memRead a = State.reset.memRead a :=
  ⟨by decide, by decide, by decide, fun _ => rfl⟩

/-- A PUSH and a CALL that store where the very next fetch reads. -/
theorem witness_StoresAreFetchedAtOnce :
    ((at' 6 [0x45, 0x00]).setReg 7 9).rs = .running ∧
      ((at' 6 [0x45, 0x00]).setReg 7 9).fetchInstr Config.opcodes = some (.push (regByte 0)) ∧
      (after ((at' 6 [0x45, 0x00]).setReg 7 9)).pc = ((at' 6 [0x45, 0x00]).setReg 7 9).pushAddr ∧
      ((at' 6 [0x50, 0x07]).setReg 7 9).fetchInstr Config.opcodes = some (.call (regByte 7)) ∧
      (after ((at' 6 [0x50, 0x07]).setReg 7 9)).pc =
        ((at' 6 [0x50, 0x07]).setReg 7 9).pushAddr := by decide

theorem witness_PushThenPopRestores :
    Config.opcodes.Distinct ∧ (at' 6 [0x45, 0x00, 0x46, 0x01]).rs = .running ∧
      (0 : RegName) ≠ 7 ∧ (1 : RegName) ≠ 7 ∧
      (at' 6 [0x45, 0x00, 0x46, 0x01]).memRead 6 = Config.opcodes.push ∧
      (at' 6 [0x45, 0x00, 0x46, 0x01]).memRead 7 = regByte 0 ∧
      (at' 6 [0x45, 0x00, 0x46, 0x01]).memRead 8 = Config.opcodes.pop ∧
      (at' 6 [0x45, 0x00, 0x46, 0x01]).memRead 9 = regByte 1 ∧
      (at' 6 [0x45, 0x00, 0x46, 0x01]).pushAddr ≠ 8 ∧
      (at' 6 [0x45, 0x00, 0x46, 0x01]).pushAddr ≠ 9 := by decide

/-- V36 and V42: the RET state's SP and cell are those the CALL left. -/
theorem witness_CallThenRetReturns :
    exec (.call (regByte 1)) ((at' 8 [0x50, 0x01]).setReg 1 13) =
        .next (after ((at' 8 [0x50, 0x01]).setReg 1 13)) ∧
      (after ((at' 8 [0x50, 0x01]).setReg 1 13)).sp =
        ((at' 8 [0x50, 0x01]).setReg 1 13).pushAddr :=
  ⟨rfl, by decide⟩

theorem witness_JumpToSelfRunsForEver :
    ((at' 20 [0x54, 0x00]).setReg 0 20).rs = .running ∧
      ((at' 20 [0x54, 0x00]).setReg 0 20).fetchInstr Config.opcodes = some (.jmp (regByte 0)) ∧
      ((at' 20 [0x54, 0x00]).setReg 0 20).reg 0 = ((at' 20 [0x54, 0x00]).setReg 0 20).pc := by
  decide

end Sys2Proof.Tests
end

section
/-! PROOFS. FL along a run: only CMP writes it (spec/10_state.md R19, R20). -/

namespace Sys2Proof.Machine

/-- Only CMP's rule writes FL (R19): every other row of `Effect` leaves the flags as they were. -/
theorem Effect.flags_of_ne_cmp {s t : State} {i : Instr} (he : Effect s i t)
    (hi : ∀ a b : Byte, i ≠ .cmp a b) : t.flags = s.flags := by
  cases he with
  | cmp a b => exact absurd rfl (hi (regByte a) (regByte b))
  | jeq r => exact branchIf_flags _ r s
  | jne r => exact branchIf_flags _ r s
  | _ => rfl

/-- Executing anything but a CMP keeps FL, on an operand fault too (R19, R118). -/
theorem exec_flags_of_ne_cmp {s t : State} {i : Instr} (h : exec i s = .next t)
    (hi : ∀ a b : Byte, i ≠ .cmp a b) : t.flags = s.flags := by
  rcases exec_cases i s with ⟨-, u, he, hu⟩ | ⟨b, -, hu⟩
  · cases hu.symm.trans h
    exact he.flags_of_ne_cmp hi
  · cases hu.symm.trans h
    rfl

/-- A step that does not fetch a CMP keeps FL, whether it stands still, faults or executes. -/
theorem stepWith_flags_of_ne_cmp {m : OpcodeMap} {s t : State} (h : stepWith m s = .next t)
    (hi : ∀ a b : Byte, s.fetchInstr m ≠ some (.cmp a b)) : t.flags = s.flags := by
  rcases stepWith_cases m s with ⟨-, hs⟩ | ⟨-, -, hs⟩ | ⟨i, -, hf, hs⟩
  · cases hs.symm.trans h
    rfl
  · cases hs.symm.trans h
    rfl
  · exact exec_flags_of_ne_cmp (hs.symm.trans h) fun a b e => hi a b (e ▸ hf)

/-- Settles O39, by induction on the number of steps: the first step keeps FL, and the states the
rest of the run passes through are states of the whole run, one step later. -/
theorem flagsKeptBetweenCompares : Obligations.FlagsKeptBetweenCompares := by
  unfold Obligations.FlagsKeptBetweenCompares
  intro m n
  induction n with
  | zero =>
    intro s t _ h
    cases h
    rfl
  | succ n ih =>
    rintro s u hno ⟨t, hst, htu⟩
    have hfirst : t.flags = s.flags := stepWith_flags_of_ne_cmp hst (hno 0 s n.succ_pos rfl)
    have hrest : u.flags = t.flags :=
      ih t u (fun k v hk hv => hno (k + 1) v (Nat.succ_lt_succ hk) ⟨t, hst, hv⟩) htu
    exact hrest.trans hfirst

end Sys2Proof.Machine
end

section
/-! PROOFS. The opcode table: what the decoder knows and what it does not
(spec/30_encoding.md R51). -/

namespace Sys2Proof

/-- A byte decodes to a row exactly if it is that row's opcode (R51). -/
theorem decodeOpcode_eq_some_iff {m : OpcodeMap} (h : m.Distinct) {b : Byte} {op : Op} :
    decodeOpcode m b = some op ↔ b = m.byte op := by
  constructor
  · exact fun hd => (decodeOpcode_some hd).symm
  · rintro rfl
    exact decodeOpcode_byte m h op

/-- A byte is unknown exactly if it is no row's opcode, for any map (R51). -/
theorem decodeOpcode_eq_none_iff {m : OpcodeMap} {b : Byte} :
    decodeOpcode m b = none ↔ ∀ op : Op, b ≠ m.byte op := by
  rw [decodeOpcode_none, OpcodeMap.values_eq]
  simp [eq_comm]

/-- The verdict is a row exactly on the twelve values of the map. -/
theorem decodeOpcode_isSome_iff {m : OpcodeMap} {b : Byte} :
    (decodeOpcode m b).isSome = true ↔ b ∈ m.values := by
  rw [Option.isSome_iff_ne_none, ne_eq, decodeOpcode_none, not_not]

/-- The byte values that decode are the twelve values of the map, each once. -/
theorem range_filter_isSome_perm (m : OpcodeMap) (h : m.Distinct) :
    ((List.range 256).filter (fun n => (decodeOpcode m (BitVec.ofNat 8 n)).isSome)).Perm
      (m.values.map BitVec.toNat) := by
  refine (List.perm_ext_iff_of_nodup (List.nodup_range.filter _)
    (h.map fun _ _ => BitVec.eq_of_toNat_eq)).mpr fun n => ?_
  rw [List.mem_filter, List.mem_range, decodeOpcode_isSome_iff, List.mem_map]
  constructor
  · rintro ⟨hn, hmem⟩
    exact ⟨_, hmem, (BitVec.toNat_ofNat n 8).trans (Nat.mod_eq_of_lt hn)⟩
  · rintro ⟨b, hb, rfl⟩
    exact ⟨b.isLt, by simpa using hb⟩

/-- Of the 256 byte values, the 244 that are no row's opcode are unknown (R51). -/
theorem range_filter_isNone_length (m : OpcodeMap) (h : m.Distinct) :
    ((List.range 256).filter
      (fun n => (decodeOpcode m (BitVec.ofNat 8 n)).isNone)).length = 244 := by
  have hknown : ((List.range 256).filter
      (fun n => (decodeOpcode m (BitVec.ofNat 8 n)).isSome)).length = 12 := by
    rw [(range_filter_isSome_perm m h).length_eq, List.length_map]
    rfl
  have hsplit := List.length_eq_length_filter_add (l := List.range 256)
    (fun n => (decodeOpcode m (BitVec.ofNat 8 n)).isSome)
  simp only [Option.not_isSome, List.length_range, hknown] at hsplit
  omega

/-- A row is one, two or three bytes long (R45). -/
theorem Op.length_bounds (op : Op) : 1 ≤ op.length ∧ op.length ≤ 3 := by cases op <;> decide

/-- Where two bytes follow the opcode, a row takes from them the operands its length calls for. -/
theorem takeOperands_cons_cons (op : Op) (a b : Byte) (rest : List Byte) :
    takeOperands op (a :: b :: rest) =
      .ok (op.toInstr a b, (a :: b :: rest).drop (op.length - 1)) := by
  cases op <;> rfl

/-- A row's opcode and two bytes after it decode to that row's instruction (R50, R51, R53). -/
theorem decodeWith_byte_cons_cons (m : OpcodeMap) (h : m.Distinct) (op : Op) (a b : Byte)
    (rest : List Byte) :
    decodeWith m (m.byte op :: a :: b :: rest) =
      .ok (op.toInstr a b, (a :: b :: rest).drop (op.length - 1)) := by
  simp only [decodeWith, decodeOpcode_byte m h, takeOperands_cons_cons]

/-- Settles O10: the two equivalences, the count and the row's instruction are the lemmas above,
and the fault is the step rule for an unknown opcode. -/
theorem opcodeTableIsClosed : Obligations.OpcodeTableIsClosed := by
  unfold Obligations.OpcodeTableIsClosed
  intro m h
  refine ⟨fun b op => decodeOpcode_eq_some_iff h, fun b => decodeOpcode_eq_none_iff,
    range_filter_isNone_length m h, fun op a b rest => ?operands, fun s hr hd => ?fault⟩
  case operands =>
    refine ⟨_, decodeWith_byte_cons_cons m h op a b rest, ?_⟩
    have hlen := op.length_bounds
    simp only [List.length_drop, List.length_cons]
    omega
  case fault =>
    exact Machine.stepWith_unknown hr (Machine.State.fetchInstr_none.mpr hd)

end Sys2Proof
end

section
/-! PROOFS. MUL (spec/41_alu.md R78) and CMP (R79): the ALU instructions on two register operands,
with the rules for the operand fault, the advance of `pc` and the flags that they rest on. -/

namespace Sys2Proof

/-- A bad operand 1 is the one reported, whatever operands follow it (R117). -/
theorem Instr.firstBadOperand_head {i : Instr} {a : Byte} {rest : List Byte}
    (hi : i.regOperands = a :: rest) (ha : 7 < a.toNat) : i.firstBadOperand = some a := by
  rw [Instr.firstBadOperand, hi]
  exact List.find?_cons_of_pos (by simp [Machine.isRegIndex_big a ha])

/-- A bad operand 2 is the one reported where operand 1 names a register (R117). -/
theorem Instr.firstBadOperand_second {i : Instr} {a b : Byte} {rest : List Byte}
    (hi : i.regOperands = a :: b :: rest) (ha : a.toNat ≤ 7) (hb : 7 < b.toNat) :
    i.firstBadOperand = some b := by
  have hgood : isRegIndex a = true := decide_eq_true ha
  rw [Instr.firstBadOperand, hi, List.find?_cons_of_neg (by simp [hgood])]
  exact List.find?_cons_of_pos (by simp [Machine.isRegIndex_big b hb])

end Sys2Proof

namespace Sys2Proof.Machine

/-- An instruction faults on its first bad register operand (R112, R117, R118). -/
theorem operandFault_of_firstBadOperand {i : Instr} {b : Byte} (s : State)
    (h : i.firstBadOperand = some b) : OperandFault i s b := by
  rcases exec_cases i s with ⟨hgood, -⟩ | ⟨c, hc, hexec⟩
  · cases hgood.symm.trans h
  · cases hc.symm.trans h
    exact ⟨s.memRead s.pc, hexec⟩

/-- Of two register operands, operand 1 faults before operand 2 (R47, R117). -/
theorem operandFaults_of_two {i : Instr} {a b : Byte} (s : State) (hi : i.regOperands = [a, b]) :
    (7 < a.toNat → OperandFault i s a) ∧ (a.toNat ≤ 7 → 7 < b.toNat → OperandFault i s b) :=
  ⟨fun ha => operandFault_of_firstBadOperand s (Instr.firstBadOperand_head hi ha),
    fun ha hb => operandFault_of_firstBadOperand s (Instr.firstBadOperand_second hi ha hb)⟩

/-- `pc` advances modulo 256 (R16). -/
theorem State.advance_pc_toNat (s : State) (n : Nat) :
    (s.advance n).pc.toNat = (s.pc.toNat + n) % 256 := by
  simp

/-- One register write, and then an advance, keeps every other register. -/
theorem regsKept_setReg_advance (s : State) (r : RegName) (v : Byte) (n : Nat) :
    RegsKept s ((s.setReg r v).advance n) [r] := fun q hq =>
  s.setReg_reg_other r q v (List.ne_of_not_mem_cons hq)

/-- CMP's L is the unsigned "less than" (R75). -/
theorem compareFlags_less (x y : Byte) : (compareFlags x y).less = true ↔ x.toNat < y.toNat :=
  decide_eq_true_iff

/-- CMP's G is the unsigned "greater than" (R75). -/
theorem compareFlags_greater (x y : Byte) :
    (compareFlags x y).greater = true ↔ x.toNat > y.toNat :=
  decide_eq_true_iff

/-- CMP's E is equality (R75). -/
theorem compareFlags_equal (x y : Byte) : (compareFlags x y).equal = true ↔ x.toNat = y.toNat :=
  decide_eq_true_iff

/-- Settles O26: `exec_mul` names the next state, and a byte product is the product modulo 256; the
operand faults are those of any instruction with two register operands. -/
theorem mulMultiplies : Obligations.MulMultiplies := by
  unfold Obligations.MulMultiplies
  intro m s a b op1 op2
  refine ⟨rfl, ⟨_, exec_mul s a b, ?product, regsKept_setReg_advance s a _ 3,
    State.advance_pc_toNat _ 3, rfl, rfl, fun _ => rfl, rfl⟩, operandFaults_of_two s rfl⟩
  case product =>
    rw [State.advance_reg, State.setReg_reg_same, BitVec.toNat_mul]

/-- Settles O27: `exec_cmp` names the next state, and its flags are the three comparisons; the
operand faults are those of any instruction with two register operands. -/
theorem cmpSetsFlags : Obligations.CmpSetsFlags := by
  unfold Obligations.CmpSetsFlags
  intro m s a b op1 op2
  exact ⟨rfl, ⟨_, exec_cmp s a b, compareFlags_less _ _, compareFlags_greater _ _,
    compareFlags_equal _ _, fun _ _ => rfl, State.advance_pc_toNat _ 3, rfl, fun _ => rfl, rfl⟩,
    operandFaults_of_two s rfl⟩

end Sys2Proof.Machine
end

section
/-! PROOFS. LDI (spec/42_load_print.md R85): the immediate load. -/

namespace Sys2Proof.Machine

/-- Settles O24: `exec_ldi` names the next state, a register write and an advance; the immediate is
no register operand, so only operand 1 is checked (R47). -/
theorem ldiLoadsImmediate : Obligations.LdiLoadsImmediate := by
  unfold Obligations.LdiLoadsImmediate
  intro m s d op1 imm
  refine ⟨rfl, ⟨_, exec_ldi s d imm, ?loaded, regsKept_setReg_advance s d imm 3,
    State.advance_pc_toNat _ 3, rfl, rfl, fun _ => rfl, rfl⟩, fun hbig => ?fault⟩
  case loaded =>
    rw [State.advance_reg, State.setReg_reg_same]
  case fault =>
    exact operandFault_of_firstBadOperand s (Instr.firstBadOperand_head rfl hbig)

end Sys2Proof.Machine
end

section
/-! PROOFS. Control transfer (spec/44_control.md): RET (R97), JMP (R98), and the two conditional
branches JEQ (R99) and JNE (R100), which share the rules of `branchIf`. -/

namespace Sys2Proof.Machine

/-- An instruction with one register operand faults on it when it names no register (R47). -/
theorem operandFault_of_one {i : Instr} {a : Byte} (s : State) (hi : i.regOperands = [a])
    (ha : 7 < a.toNat) : OperandFault i s a :=
  operandFault_of_firstBadOperand s (Instr.firstBadOperand_head hi ha)

/-! ### RET and JMP -/

/-- SP goes up modulo 256 (R90). -/
theorem State.incSp_sp_toNat (s : State) : s.incSp.sp.toNat = (s.sp.toNat + 1) % 256 := by
  rw [State.incSp_sp, BitVec.toNat_add]
  rfl

/-- An increment of SP keeps every register but SP. -/
theorem regsKept_incSp (s : State) : RegsKept s s.incSp [7] := fun q hq =>
  s.setReg_reg_other Config.spIndex q _ (List.ne_of_not_mem_cons hq)

/-- Writing `pc` with the value it holds changes nothing. -/
@[simp] theorem State.setPc_pc_self (s : State) : s.setPc s.pc = s := rfl

/-- Settles O31: `exec_ret` names the next state, `pc` from the top of the stack and then SP
incremented; the write to `pc` comes first and changes neither SP nor any other register. -/
theorem retPopsIntoPc : Obligations.RetPopsIntoPc := by
  unfold Obligations.RetPopsIntoPc
  intro m s
  exact ⟨rfl, _, exec_ret s, rfl, (s.setPc s.top).incSp_sp_toNat, regsKept_incSp (s.setPc s.top),
    rfl, rfl, fun _ => rfl, rfl⟩

/-- Settles O32: `exec_jmp` names the next state, a write to `pc` alone, which is the same state
where the register holds `pc`. -/
theorem jmpSetsPc : Obligations.JmpSetsPc := by
  unfold Obligations.JmpSetsPc
  intro m s r op1
  refine ⟨rfl, ⟨_, exec_jmp s r, rfl, fun _ _ => rfl, rfl, rfl, fun _ => rfl, rfl,
    fun hself => ?same⟩, operandFault_of_one s rfl⟩
  case same =>
    rw [hself, State.setPc_pc_self]

/-! ### JEQ and JNE -/

/-- A branch whose condition holds goes to its register (R99, R100). -/
theorem branchIf_pc_taken {c : Bool} (hc : c = true) (r : RegName) (s : State) :
    (branchIf c r s).pc = s.reg r := by
  rw [branchIf_pc, if_pos hc]

/-- A branch whose condition fails goes on past its two bytes, modulo 256 (R99, R100). -/
theorem branchIf_pc_toNat_not_taken {c : Bool} (hc : c = false) (r : RegName) (s : State) :
    (branchIf c r s).pc.toNat = (s.pc.toNat + 2) % 256 := by
  subst hc
  exact s.advance_pc_toNat 2

/-- A branch keeps every register, taken or not. -/
theorem branchIf_regsKept (c : Bool) (r : RegName) (s : State) :
    RegsKept s (branchIf c r s) [] := fun q _ => branchIf_reg c r s q

/-- A branch keeps every byte of memory, taken or not. -/
theorem branchIf_memKept (c : Bool) (r : RegName) (s : State) :
    MemKept s (branchIf c r s) := branchIf_memRead c r s

/-- JEQ's condition is the flag E (R99). -/
theorem Flags.eqHolds_eq (f : Flags) : f.eqHolds = f.equal := rfl

/-- JNE's condition holds exactly where E is clear (R100). -/
theorem Flags.neHolds_eq_true_iff (f : Flags) : f.neHolds = true ↔ f.equal = false := by
  rw [Flags.neHolds, Bool.not_eq_true']

/-- JNE's condition fails exactly where E is set (R100). -/
theorem Flags.neHolds_eq_false_iff (f : Flags) : f.neHolds = false ↔ f.equal = true := by
  rw [Flags.neHolds, Bool.not_eq_false']

/-- Settles O33: `exec_jeq` names the next state, the branch on E; where it goes and what it keeps
are the rules of `branchIf`, and the operand fault does not depend on the flags. -/
theorem jeqBranchesOnEqual : Obligations.JeqBranchesOnEqual := by
  unfold Obligations.JeqBranchesOnEqual
  intro m s r op1
  refine ⟨rfl, ⟨_, exec_jeq s r, fun hset => ?taken, fun hclear => ?past,
    branchIf_regsKept _ r s, branchIf_flags _ r s, branchIf_rs _ r s, branchIf_memKept _ r s,
    branchIf_out _ r s⟩, operandFault_of_one s rfl⟩
  case taken => exact branchIf_pc_taken (s.flags.eqHolds_eq.trans hset) r s
  case past => exact branchIf_pc_toNat_not_taken (s.flags.eqHolds_eq.trans hclear) r s

/-- Settles O34: JNE and JEQ are one branch on opposite conditions, so from the same flags exactly
one of the two is taken; what JNE keeps are the rules of `branchIf`. -/
theorem jneBranchesOnNotEqual : Obligations.JneBranchesOnNotEqual := by
  unfold Obligations.JneBranchesOnNotEqual
  intro m s r op1
  refine ⟨rfl, ⟨_, _, exec_jne s r, exec_jeq s r, fun hclear => ⟨?jneTaken, ?jeqPast⟩,
    fun hset => ⟨?jnePast, ?jeqTaken⟩, branchIf_regsKept _ r s, branchIf_flags _ r s,
    branchIf_rs _ r s, branchIf_memKept _ r s, branchIf_out _ r s⟩, operandFault_of_one s rfl⟩
  case jneTaken => exact branchIf_pc_taken (s.flags.neHolds_eq_true_iff.mpr hclear) r s
  case jeqPast => exact branchIf_pc_toNat_not_taken (s.flags.eqHolds_eq.trans hclear) r s
  case jnePast =>
    exact branchIf_pc_toNat_not_taken (s.flags.neHolds_eq_false_iff.mpr hset) r s
  case jeqTaken => exact branchIf_pc_taken (s.flags.eqHolds_eq.trans hset) r s

end Sys2Proof.Machine
end

section
/-! PROOFS. The unknown opcode (spec/60_exceptions.md R111). -/

namespace Sys2Proof.Machine

/-- No instruction is fetched exactly where the byte at `pc` is no row's opcode (R51, R62); the
bytes after it play no part. -/
theorem State.fetchInstr_none_iff_forall_ne_byte {m : OpcodeMap} {s : State} :
    s.fetchInstr m = none ↔ ∀ op : Op, s.memRead s.pc ≠ m.byte op :=
  State.fetchInstr_none.trans decodeOpcode_eq_none_iff

/-- Settles O14: a byte that is no row's opcode fetches no instruction, and a running machine that
fetches none faults, which writes the run state and nothing else. -/
theorem unknownOpcodeFaults : Obligations.UnknownOpcodeFaults := by
  unfold Obligations.UnknownOpcodeFaults
  intro m s hr hunknown
  have hfetch : s.fetchInstr m = none := State.fetchInstr_none_iff_forall_ne_byte.mpr hunknown
  exact stepWith_unknown hr hfetch

end Sys2Proof.Machine
end

section
/-! PROOFS. Everything a step can do, in one case split, and what each case says of the state. -/

namespace Sys2Proof.Machine

/-- An effect is what `exec` answers. -/
theorem Effect.exec_eq {s t : State} {i : Instr} (he : Effect s i t) : exec i s = .next t := by
  cases he with
  | ldi d imm => exact exec_ldi s d imm
  | prn r => exact exec_prn s r
  | mul a b => exact exec_mul s a b
  | cmp a b => exact exec_cmp s a b
  | push r => exact exec_push s r
  | pop d => exact exec_pop s d
  | call r => exact exec_call s r
  | ret => exact exec_ret s
  | jmp r => exact exec_jmp s r
  | jeq r => exact exec_jeq s r
  | jne r => exact exec_jne s r
  | hlt => exact exec_hlt s

/-- The operand fault is what `exec` answers on a bad operand (R112). -/
theorem exec_of_firstBadOperand {i : Instr} {b : Byte} (s : State)
    (h : i.firstBadOperand = some b) :
    exec i s = .next (s.setRunState (.fault (.registerOutOfRange (s.memRead s.pc) s.pc b))) := by
  rcases exec_cases i s with ⟨hgood, -⟩ | ⟨c, hc, hexec⟩
  · cases hgood.symm.trans h
  · cases hc.symm.trans h
    exact hexec

/-- The operands of an instruction that has an effect all name registers. -/
theorem Effect.wf {s t : State} {i : Instr} (he : Effect s i t) : i.wf = true := by
  cases he <;> simp [Instr.wf, Instr.regOperands]

/-- A bad operand is one of an ill-formed instruction. -/
theorem wf_of_firstBadOperand {i : Instr} {b : Byte} (h : i.firstBadOperand = some b) :
    i.wf = false := by
  rw [← Bool.not_eq_true, ← i.firstBadOperand_none, h]
  exact Option.some_ne_none b

/-- The four things a step can do (R60 to R65): stand still, fault on the opcode, fault on an
operand, or have the effect of the instruction fetched. -/
inductive Transition (m : OpcodeMap) (s : State) : State → Prop
  | stopped (hr : s.rs ≠ .running) : Transition m s s
  | unknown (hr : s.rs = .running) (hf : s.fetchInstr m = none) :
      Transition m s (s.setRunState (.fault (.unknownInstruction s.fetchOpcode s.pc)))
  | badOperand (hr : s.rs = .running) {i : Instr} {b : Byte} (hf : s.fetchInstr m = some i)
      (hb : i.firstBadOperand = some b) :
      Transition m s (s.setRunState (.fault (.registerOutOfRange (s.memRead s.pc) s.pc b)))
  | effect (hr : s.rs = .running) {i : Instr} {t : State} (hf : s.fetchInstr m = some i)
      (he : Effect s i t) : Transition m s t

/-- A step makes one of the four transitions, from any state. -/
theorem exists_transition (m : OpcodeMap) (s : State) :
    ∃ t, stepWith m s = .next t ∧ Transition m s t := by
  rcases stepWith_cases m s with ⟨hr, hs⟩ | ⟨hr, hf, hs⟩ | ⟨i, hr, hf, hs⟩
  · exact ⟨s, hs, .stopped hr⟩
  · exact ⟨_, hs, .unknown hr hf⟩
  · rcases exec_cases i s with ⟨-, t, he, ht⟩ | ⟨b, hb, ht⟩
    · exact ⟨t, hs.trans ht, .effect hr hf he⟩
    · exact ⟨_, hs.trans ht, .badOperand hr hf hb⟩

/-- The transitions are all that a step can do. -/
theorem transition_of_stepWith {m : OpcodeMap} {s t : State} (h : stepWith m s = .next t) :
    Transition m s t := by
  obtain ⟨u, hu, htr⟩ := exists_transition m s
  cases hu.symm.trans h
  exact htr

/-- Every instruction but HLT keeps the run state (R22). -/
theorem Effect.rs_of_ne_hlt {s t : State} {i : Instr} (he : Effect s i t) (hi : i ≠ .hlt) :
    t.rs = s.rs := by
  cases he with
  | hlt => exact absurd rfl hi
  | jeq r => exact branchIf_rs _ r s
  | jne r => exact branchIf_rs _ r s
  | _ => rfl

/-- An instruction keeps FL, or writes the flags of a comparison (R19). -/
theorem Effect.flags_cases {s t : State} {i : Instr} (he : Effect s i t) :
    t.flags = s.flags ∨ ∃ x y : Byte, t.flags = compareFlags x y := by
  cases he with
  | cmp a b => exact .inr ⟨s.reg a, s.reg b, rfl⟩
  | jeq r => exact .inl (branchIf_flags _ r s)
  | jne r => exact .inl (branchIf_flags _ r s)
  | _ => exact .inl rfl

/-- An instruction keeps memory as it is, or stores one byte at `pushAddr` (R32). -/
theorem Effect.mem_cases {s t : State} {i : Instr} (he : Effect s i t) :
    t.mem = s.mem ∨ ∃ v : Byte, t.mem = (s.push v).mem := by
  cases he with
  | push r => exact .inr ⟨s.decSp.reg r, rfl⟩
  | call r => exact .inr ⟨s.pc + 2, rfl⟩
  | jeq r => exact .inl (branchIf_mem _ r s)
  | jne r => exact .inl (branchIf_mem _ r s)
  | _ => exact .inl rfl

/-- An instruction keeps the canonical form of memory. -/
theorem Effect.mem_wf {s t : State} {i : Instr} (he : Effect s i t) (h : s.mem.wf = true) :
    t.mem.wf = true := by
  rcases he.mem_cases with hm | ⟨v, hm⟩
  · rwa [hm]
  · rw [hm]
    exact s.push_wf v h

/-- An instruction keeps FL one of its four values (R21). -/
theorem Effect.flags_legal {s t : State} {i : Instr} (he : Effect s i t)
    (h : s.flags.legal = true) : t.flags.legal = true := by
  rcases he.flags_cases with hf | ⟨x, y, hf⟩
  · rwa [hf]
  · rw [hf]
    exact Flags.legal_of_exactlyOne _ (compareFlags_exactlyOne x y)

/-- A running machine has a legal run state. -/
theorem runStateLegal_of_running (m : OpcodeMap) {s : State} (h : s.rs = .running) :
    RunStateLegal m s := by
  simp only [RunStateLegal, h]

/-- An instruction that a running machine fetches leaves it running, or halted on that HLT. -/
theorem Effect.runStateLegal {m : OpcodeMap} {s t : State} {i : Instr} (hr : s.rs = .running)
    (hf : s.fetchInstr m = some i) (he : Effect s i t) : RunStateLegal m t := by
  by_cases hi : i = .hlt
  · subst hi
    cases he
    exact hf
  · exact runStateLegal_of_running m ((he.rs_of_ne_hlt hi).trans hr)

/-- Settles O3, by the four transitions: a fault record is made of the byte at `pc` and the `pc` of
the state that is kept, and only an instruction's effect writes memory or FL. -/
theorem stepKeepsInv : Obligations.StepKeepsInv := by
  unfold Obligations.StepKeepsInv
  intro m s t hinv hstep
  cases transition_of_stepWith hstep with
  | stopped => exact hinv
  | unknown _ hf =>
    exact ⟨hinv.mem_wf, hinv.flags_legal, rfl, rfl, State.fetchInstr_none.mp hf⟩
  | badOperand _ hf hb =>
    exact ⟨hinv.mem_wf, hinv.flags_legal, rfl, rfl, Instr.firstBadOperand_big hb, _, hf, hb⟩
  | effect hr hf he =>
    exact ⟨he.mem_wf hinv.mem_wf, he.flags_legal hinv.flags_legal, he.runStateLegal hr hf⟩

end Sys2Proof.Machine
end

section
/-! PROOFS. The decoder and the encoder undo each other (spec/30_encoding.md R45, R50, R51). -/

namespace Sys2Proof

/-- From an instruction's operand bytes its row takes exactly that instruction. -/
theorem takeOperands_operands (i : Instr) (rest : List Byte) :
    takeOperands i.op (i.operands ++ rest) = .ok (i, rest) := by
  cases i <;> rfl

/-- A row's instruction has the operand bytes its length calls for. -/
theorem Op.toInstr_operands (op : Op) (a b : Byte) :
    (op.toInstr a b).operands = [a, b].take (op.length - 1) := by
  cases op <;> rfl

/-- What a row takes off a byte string is one of its instructions, and the bytes taken are that
instruction's operands. -/
theorem takeOperands_ok {op : Op} {bytes rest : List Byte} {i : Instr}
    (h : takeOperands op bytes = .ok (i, rest)) :
    i.op = op ∧ i.operands ++ rest = bytes := by
  unfold takeOperands at h
  split at h
  all_goals cases h
  all_goals simp [Op.toInstr_operands, Op.length, Format.length, *]

/-- Settles O8: the opcode byte decodes to the instruction's row, which takes the operand bytes
back. -/
theorem decodeOfEncode : Obligations.DecodeOfEncode := by
  unfold Obligations.DecodeOfEncode
  intro m i rest hm
  rw [encodeWith, List.cons_append, decodeWith, decodeOpcode_byte m hm]
  exact takeOperands_operands i rest

/-- Settles O9: the first byte is the opcode of the row it decodes to, and the row's operands are
the bytes taken after it. -/
theorem encodeOfDecode : Obligations.EncodeOfDecode := by
  unfold Obligations.EncodeOfDecode
  intro m bytes rest i h
  have hbytes : encodeWith m i ++ rest = bytes := by
    unfold decodeWith at h
    split at h
    · cases h
    · split at h
      · cases h
      · next hd =>
        obtain ⟨hop, hoperands⟩ := takeOperands_ok h
        rw [encodeWith, List.cons_append, hoperands, hop, decodeOpcode_some hd]
  refine ⟨hbytes, ?_⟩
  rw [← hbytes, List.length_append, encodeWith_length]

/-- Settles O11: each byte string is evaluated under the default opcode values. -/
theorem wordsDecodeAsTheTableSays : Obligations.WordsDecodeAsTheTableSays := by
  unfold Obligations.WordsDecodeAsTheTableSays
  exact ⟨rfl, rfl, rfl, rfl, rfl, rfl, rfl⟩

/-- Settles O16: a byte of 7 or less is a register's operand byte, and a bigger one names none. -/
theorem registerOperandCheck : Obligations.RegisterOperandCheck := by
  unfold Obligations.RegisterOperandCheck
  intro b
  refine ⟨fun hsmall => ?_, Machine.regidx_big b⟩
  obtain ⟨r, rfl⟩ := Machine.eq_regByte b hsmall
  exact ⟨r, Machine.regidx_regByte r, (Machine.regByte_toNat r).symm, rfl⟩

end Sys2Proof
end

section
/-! PROOFS. The step and the run state: what is executed, what faults, what stops
(spec/10_state.md R22, spec/40_fetch_decode.md R60 to R65, spec/60_exceptions.md R118). -/

namespace Sys2Proof.Machine

/-- The instruction that the byte decoder reads off the three bytes at `pc` is the one fetched. -/
theorem State.fetchInstr_of_decodeWith_window {m : OpcodeMap} {s : State} {i : Instr}
    {rest : List Byte} (h : decodeWith m s.window = .ok (i, rest)) : s.fetchInstr m = some i := by
  rw [← decodeWith_window, h]

/-- Settles O13: the three bytes are the fetch window, and a step executes what it fetches. -/
theorem stepRunsDecodedInstruction : Obligations.StepRunsDecodedInstruction := by
  unfold Obligations.StepRunsDecodedInstruction
  intro m s i rest hr hdecode
  have hstep : stepWith m s = exec i s :=
    stepWith_exec hr (State.fetchInstr_of_decodeWith_window hdecode)
  refine ⟨hstep, ?_⟩
  rintro rfl
  exact hstep

/-- A step on a bad operand records the opcode fetched, `pc` and that operand (R112). -/
theorem stepWith_of_firstBadOperand {m : OpcodeMap} {s : State} {i : Instr} {b : Byte}
    (hr : s.rs = .running) (hf : s.fetchInstr m = some i) (hb : i.firstBadOperand = some b) :
    stepWith m s = .next { s with rs := .fault (.registerOutOfRange (m.byte i.op) s.pc b) } := by
  rw [stepWith_exec hr hf, exec_of_firstBadOperand s hb, (State.fetchInstr_some hf).2]
  rfl

/-- Settles O15: the first bad operand is the one recorded, and it is operand 1 if that is bad, else
operand 2. -/
theorem badOperandFaults : Obligations.BadOperandFaults := by
  unfold Obligations.BadOperandFaults
  intro m s i hr hf
  refine ⟨fun b hhead hbig => ?first, fun a b htwo hsmall hbig => ?second⟩
  case first =>
    obtain ⟨rest, hrest⟩ := List.head?_eq_some_iff.mp hhead
    exact stepWith_of_firstBadOperand hr hf (Instr.firstBadOperand_head hrest hbig)
  case second =>
    exact stepWith_of_firstBadOperand hr hf (Instr.firstBadOperand_second htwo hsmall hbig)

/-- Settles O18: one of the four transitions is made from every state. -/
theorem everyStepAnswersNext : Obligations.EveryStepAnswersNext := by
  unfold Obligations.EveryStepAnswersNext
  intro m s
  obtain ⟨t, ht, -⟩ := exists_transition m s
  exact ⟨t, ht⟩

/-- An instruction that a running machine executes stops it exactly if it is HLT (R22, R105). -/
theorem Effect.rs_of_running {s t : State} {i : Instr} (hr : s.rs = .running)
    (he : Effect s i t) : t.rs = if i = .hlt then .halted else .running := by
  split
  · next hi =>
    subst hi
    cases he
    rfl
  · next hi => exact (he.rs_of_ne_hlt hi).trans hr

/-- Settles O19: each of the three transitions of a running machine has its own run state, and each
is made on one of three conditions that exclude each other: no instruction, an ill-formed one, a
well-formed one. -/
theorem runStateTransitions : Obligations.RunStateTransitions := by
  unfold Obligations.RunStateTransitions
  refine ⟨fun _ => rfl, fun m s t hstep => ⟨fun hr => ?running, fun hr => ?stopped⟩⟩
  case running =>
    cases transition_of_stepWith hstep with
    | stopped hs => exact absurd hr hs
    | unknown _ hf => simp [hf]
    | @badOperand _ i b hf hb =>
      have hwf : i.wf = false := wf_of_firstBadOperand hb
      have hne : i ≠ .hlt := by
        rintro rfl
        cases hb
      simp [hf, hwf, hne]
    | @effect _ i _ hf he =>
      have hwf : i.wf = true := he.wf
      have hrs := he.rs_of_running hr
      by_cases hi : i = .hlt
      · subst hi
        simp [hf, hwf, hrs]
      · simp [hf, hwf, hrs, hi]
  case stopped =>
    cases (stepWith_stopped hr).symm.trans hstep
    rfl

/-- Settles O20: of the transitions of a running machine only the two faults lead to a Fault, and
they write the run state alone; an instruction's effect leaves it running or halted. -/
theorem faultsArePrecise : Obligations.FaultsArePrecise := by
  unfold Obligations.FaultsArePrecise
  intro m s t f hr hstep hfault
  cases transition_of_stepWith hstep with
  | stopped hs => exact absurd hr hs
  | unknown =>
    cases hfault
    exact ⟨rfl, .inl rfl⟩
  | badOperand =>
    cases hfault
    exact ⟨rfl, .inr rfl⟩
  | effect _ _ he =>
    rw [he.rs_of_running hr] at hfault
    split at hfault <;> cases hfault

/-- Settles O35: HLT's rule writes the run state alone, and a halted machine is stopped. -/
theorem hltHalts : Obligations.HltHalts := by
  unfold Obligations.HltHalts
  intro m s
  exact ⟨rfl, exec_hlt s, stepWith_stopped RunState.noConfusion⟩

/-- Settles O51: codes and results are read off their definitions, and the exit code on Fault is a
successor. -/
theorem faultCodesAndExitCodes : Obligations.FaultCodesAndExitCodes := by
  unfold Obligations.FaultCodesAndExitCodes
  exact ⟨fun _ _ _ _ _ => ⟨rfl, rfl, rfl⟩, rfl, rfl,
    fun _ => ⟨Config.exitFault, rfl, Nat.succ_ne_zero _⟩, fun _ => rfl⟩

end Sys2Proof.Machine
end

section
/-! PROOFS. Runs: one step after another, up to the first stop
(spec/40_fetch_decode.md R65 to R67). -/

namespace Sys2Proof.Machine

/-- A state that a step answers itself is where every run from it ends. -/
theorem runsTo_self {m : OpcodeMap} {s : State} (h : stepWith m s = .next s) (n : Nat) :
    RunsTo m n s s := by
  induction n with
  | zero => rfl
  | succ n ih => exact ⟨s, h, ih⟩

/-- A run of any length from a state leads to one state only. -/
theorem RunsTo.unique {m : OpcodeMap} {n : Nat} {s t u : State} (ht : RunsTo m n s t)
    (hu : RunsTo m n s u) : t = u := by
  induction n generalizing s with
  | zero => exact ht.symm.trans hu
  | succ n ih =>
    obtain ⟨v, hv, hvt⟩ := ht
    obtain ⟨w, hw, hwu⟩ := hu
    cases hv.symm.trans hw
    exact ih hvt hwu

/-- A run of `a + b` steps is a run of `a` and one of `b` from there (R67). -/
theorem runsTo_add {m : OpcodeMap} {a b : Nat} {s u : State} :
    RunsTo m (a + b) s u ↔ ∃ t, RunsTo m a s t ∧ RunsTo m b t u := by
  induction a generalizing s with
  | zero => simp
  | succ a ih =>
    rw [Nat.succ_add, runsTo_succ]
    simp only [ih, runsTo_succ]
    constructor
    · rintro ⟨v, hv, t, ht, hu⟩
      exact ⟨t, ⟨v, hv, ht⟩, hu⟩
    · rintro ⟨t, ⟨v, hv, ht⟩, hu⟩
      exact ⟨v, hv, t, ht, hu⟩

/-- A run from a stopped state stays there (R65). -/
theorem RunsTo.eq_of_stopped {m : OpcodeMap} {n : Nat} {s u : State} (hs : s.rs ≠ .running)
    (h : RunsTo m n s u) : u = s :=
  h.unique (runsTo_self (stepWith_stopped hs) n)

/-- Settles O17: a stopped machine's step answers the same state. -/
theorem terminalStatesAreFrozen : Obligations.TerminalStatesAreFrozen := by
  unfold Obligations.TerminalStatesAreFrozen
  intro m s hs
  have hstep : stepWith m s = .next s := stepWith_stopped (s.rs.terminal_iff.mp hs)
  exact ⟨hstep, runsTo_self hstep⟩

/-- A run of the model takes all its steps, or fewer and ends in a terminal state (R65, R66). -/
theorem RunsTo.exists_stepsTaken {m : OpcodeMap} {n : Nat} {s u : State} (h : RunsTo m n s u) :
    ∃ k : Nat, k ≤ n ∧ StepsTaken m k s u ∧ (k = n ∨ u.rs.terminal = true) := by
  induction n generalizing s with
  | zero => exact ⟨0, le_rfl, h, .inl rfl⟩
  | succ n ih =>
    by_cases hr : s.rs = .running
    · obtain ⟨t, hst, htu⟩ := h
      obtain ⟨k, hk, htaken, hend⟩ := ih htu
      exact ⟨k + 1, Nat.succ_le_succ hk, ⟨hr, t, hst, htaken⟩,
        hend.imp_left (congrArg Nat.succ)⟩
    · obtain rfl : u = s := h.eq_of_stopped hr
      exact ⟨0, Nat.zero_le _, rfl, .inr (u.rs.terminal_iff.mpr hr)⟩

/-- Steps taken up to a terminal state are a run of the model of any greater length. -/
theorem StepsTaken.runsTo_of_le {m : OpcodeMap} {k n : Nat} {s u : State}
    (h : StepsTaken m k s u) (hk : k ≤ n) (hend : k = n ∨ u.rs.terminal = true) :
    RunsTo m n s u := by
  rcases hend with rfl | hu
  · exact h.runsTo
  · rw [← Nat.add_sub_cancel' hk]
    have hself : stepWith m u = .next u := stepWith_stopped (u.rs.terminal_iff.mp hu)
    exact runsTo_add.mpr ⟨u, h.runsTo, runsTo_self hself _⟩

/-- A step from a running state into a terminal one is a stop (R22, R66). -/
theorem stopsAt_of_stepWith {m : OpcodeMap} {t u : State} (hr : t.rs = .running)
    (h : stepWith m t = .next u) (hu : u.rs.terminal = true) : StopsAt m t u := by
  cases transition_of_stepWith h with
  | stopped hs => exact absurd hr hs
  | unknown _ hf => exact .inr (.inl ⟨hf, rfl⟩)
  | @badOperand _ i b hf hb =>
    refine .inr (.inr ⟨i, b, hf, hb, ?_⟩)
    rw [(State.fetchInstr_some hf).2]
    rfl
  | @effect _ i _ hf he =>
    have hi : i = .hlt := by
      by_contra hi
      exact (u.rs.terminal_iff.mp hu) ((he.rs_of_ne_hlt hi).trans hr)
    subst hi
    cases he
    exact .inl ⟨hf, rfl⟩

/-- A run that leads from a running state to a terminal one took its last step into that state. -/
theorem RunsTo.exists_last_step {m : OpcodeMap} {n : Nat} {s u : State} (hr : s.rs = .running)
    (h : RunsTo m n s u) (hu : u.rs.terminal = true) :
    ∃ (k : Nat) (t : State), k < n ∧ StepsTaken m k s t ∧ t.rs = .running ∧
      stepWith m t = .next u := by
  induction n generalizing s with
  | zero =>
    cases h
    exact absurd hr ((RunState.terminal_iff _).mp hu)
  | succ n ih =>
    obtain ⟨t, hst, htu⟩ := h
    by_cases ht : t.rs = .running
    · obtain ⟨k, v, hk, htaken, hv, hlast⟩ := ih ht htu
      exact ⟨k + 1, v, Nat.succ_lt_succ hk, ⟨hr, t, hst, htaken⟩, hv, hlast⟩
    · obtain rfl : u = t := htu.eq_of_stopped ht
      exact ⟨0, s, Nat.succ_pos n, rfl, hr, hst⟩

/-- Settles O21: the model's steps past a stop are the identity, so a run is the steps taken before
it; a run splits at any pause, and its last taken step is the stop. -/
theorem singleStepsMakeTheRun : Obligations.SingleStepsMakeTheRun := by
  unfold Obligations.SingleStepsMakeTheRun
  intro m n s u
  refine ⟨⟨RunsTo.exists_stepsTaken, ?taken⟩, fun a ha => ?pause, fun hr hrun hu => ?stop⟩
  case taken =>
    rintro ⟨k, hk, htaken, hend⟩
    exact htaken.runsTo_of_le hk hend
  case pause =>
    have hsplit : RunsTo m n s u ↔ ∃ t, RunsTo m a s t ∧ RunsTo m (n - a) t u := by
      rw [← runsTo_add, Nat.add_sub_cancel' ha]
    rw [hsplit]
    constructor
    · rintro ⟨t, hst, htu⟩
      exact ⟨t, hst, htu, fun ht => htu.eq_of_stopped (t.rs.terminal_iff.mp ht)⟩
    · rintro ⟨t, hst, htu, -⟩
      exact ⟨t, hst, htu⟩
  case stop =>
    obtain ⟨k, t, hk, htaken, ht, hlast⟩ := hrun.exists_last_step hr hu
    exact ⟨k, t, hk, htaken, ht, hlast, stopsAt_of_stepWith ht hlast hu⟩

/-- A run of any length leads somewhere (log entries 3 and 6). -/
theorem exists_runsTo (m : OpcodeMap) (n : Nat) (s : State) : ∃ t, RunsTo m n s t := by
  induction n generalizing s with
  | zero => exact ⟨s, rfl⟩
  | succ n ih =>
    obtain ⟨t, hst, -⟩ := exists_transition m s
    obtain ⟨u, htu⟩ := ih t
    exact ⟨u, t, hst, htu⟩

/-- A run under the default opcode values is what the host's interface answers. -/
theorem RunsTo.core_run {n : Nat} {s t : State} (h : RunsTo Config.opcodes n s t) :
    Sys2Proof.core.run n s = .next t := by
  induction n generalizing s with
  | zero =>
    cases h
    rfl
  | succ n ih =>
    obtain ⟨u, hsu, hut⟩ := h
    exact (core_run_succ hsu).trans (ih hut)

/-- Settles O22: a run leads somewhere, and there the host's interface leads too; it answers one
state only, which gives the converse. -/
theorem coreRunIsIteratedStep : Obligations.CoreRunIsIteratedStep := by
  unfold Obligations.CoreRunIsIteratedStep
  intro n s
  obtain ⟨u, hu⟩ := exists_runsTo Config.opcodes n s
  refine ⟨fun t => ⟨RunsTo.core_run, fun ht => ?_⟩, u, hu.core_run⟩
  cases hu.core_run.symm.trans ht
  exact hu

/-- Settles O50: the step is a JMP to `pc`, which changes nothing, so every run stays in this
running state and, leading to no other, never halts. -/
theorem jumpToSelfRunsForEver : Obligations.JumpToSelfRunsForEver := by
  unfold Obligations.JumpToSelfRunsForEver
  intro m s r n hr hf hself
  have hstep : stepWith m s = .next s := by
    rw [stepWith_exec hr hf, exec_jmp, hself, State.setPc_pc_self]
  have hrun : RunsTo m n s s := runsTo_self hstep n
  refine ⟨hrun, ⟨s, hrun, fun f hfault => ?safe⟩, fun ⟨t, ht, hhalted⟩ => ?halts⟩
  case safe => cases hr.symm.trans hfault
  case halts =>
    cases hrun.unique ht
    cases hr.symm.trans hhalted

end Sys2Proof.Machine
end

section
/-! PROOFS. Memory (spec/20_memory.md R30, R31), reset (spec/10_state.md R26) and the host's load
(spec/70_reset_and_hazards.md R131). -/

namespace Sys2Proof.Machine

/-! ### Memory -/

/-- A cell that is not listed reads as its reset value (R31). -/
theorem Memory.read_of_forall_ne {m : Memory} {a : Nat} (h : ∀ c ∈ m, c.1 ≠ a) :
    Memory.read m a = Config.memReset := by
  induction m with
  | nil => rfl
  | cons c rest ih =>
    obtain ⟨hc, hrest⟩ := List.forall_mem_cons.mp h
    rw [Memory.read, if_neg hc, ih hrest]

/-- Canonical memory lists no cell beyond the 256. -/
theorem Memory.read_of_memSize_le {m : Memory} (h : m.wf = true) {a : Nat}
    (ha : Config.memSize ≤ a) : Memory.read m a = Config.memReset := by
  obtain ⟨-, hcells⟩ := (Memory.wf_iff m).mp h
  exact Memory.read_of_forall_ne fun c hc e => absurd (hcells c hc).1 (by omega)

/-- Canonical memories that read alike at the 256 addresses are equal. -/
theorem State.mem_eq_of_memRead {s t : State} (hs : s.mem.wf = true) (ht : t.mem.wf = true)
    (h : ∀ a : Byte, s.memRead a = t.memRead a) : s.mem = t.mem := by
  refine Memory.ext_of_read _ _ hs ht fun a => ?_
  rcases Nat.lt_or_ge a Config.memSize with ha | ha
  · have hread := h (BitVec.ofNat 8 a)
    rwa [State.memRead, State.memRead, BitVec.toNat_ofNat,
      Nat.mod_eq_of_lt (show a < 2 ^ 8 from ha)] at hread
  · rw [Memory.read_of_memSize_le hs ha, Memory.read_of_memSize_le ht ha]

/-- Settles O46: the laws of one write, and canonical memories are determined by what they read. -/
theorem memoryReadsLastWrite : Obligations.MemoryReadsLastWrite := by
  unfold Obligations.MemoryReadsLastWrite
  exact ⟨fun s a b v => ⟨s.memWrite_memRead_same a v, s.memWrite_memRead_other a b v,
    s.memWrite_wf a v⟩, fun _ _ => State.mem_eq_of_memRead⟩

/-! ### Placing bytes -/

@[simp] theorem State.placeBytes_cons (s : State) (a v : Byte) (bytes : List Byte) :
    s.placeBytes a (v :: bytes) = (s.memWrite a v).placeBytes (a + 1) bytes := rfl

/-- Placing bytes writes memory and nothing else. -/
theorem State.placeBytes_eq (s : State) (a : Byte) (bytes : List Byte) :
    s.placeBytes a bytes = { s with mem := (s.placeBytes a bytes).mem } := by
  induction bytes generalizing s a with
  | nil => rfl
  | cons v bytes ih =>
    rw [State.placeBytes_cons, ih]
    rfl

/-- Placing bytes keeps the canonical form. -/
theorem State.placeBytes_wf (s : State) (a : Byte) (bytes : List Byte) (h : s.mem.wf = true) :
    (s.placeBytes a bytes).mem.wf = true := by
  induction bytes generalizing s a with
  | nil => exact h
  | cons v bytes ih => exact ih _ _ (s.memWrite_wf a v h)

/-- At most 256 bytes placed from `a` on do not overlap: `b` holds the byte as far from the first as
`b` is from `a`, modulo 256, or what it held before where there is none. -/
theorem State.placeBytes_memRead (s : State) (a b : Byte) (bytes : List Byte)
    (h : bytes.length ≤ 256) :
    (s.placeBytes a bytes).memRead b = bytes.getD (b - a).toNat (s.memRead b) := by
  induction bytes generalizing s a with
  | nil => rfl
  | cons v bytes ih =>
    rw [List.length_cons] at h
    rw [State.placeBytes_cons, ih _ _ (by omega)]
    by_cases hb : b = a
    · subst hb
      have hlast : (b - (b + 1)).toNat = 255 := by simp
      rw [hlast, List.getD_eq_default _ _ (by omega), State.memWrite_memRead_same]
      simp
    · have hnext : (b - a).toNat = (b - (a + 1)).toNat + 1 := by bv_omega
      rw [hnext, List.getD_cons_succ, State.memWrite_memRead_other _ _ _ _ hb]

/-! ### Reset and launch -/

/-- Settles O1: the registers and cells of the reset state read as 0, and the rest of it is written
out. -/
theorem resetValues : Obligations.ResetValues := by
  unfold Obligations.ResetValues
  exact fun _ => ⟨State.reset_reg, State.reset_reg _, rfl, rfl, rfl, rfl, rfl,
    State.reset_memRead, rfl, rfl⟩

/-- A running machine with no flag true and canonical memory meets the invariant. -/
theorem inv_of_reset_flags (m : OpcodeMap) {s : State} (hmem : s.mem.wf = true)
    (hflags : s.flags = Flags.reset) (hr : s.rs = .running) : Inv m s :=
  ⟨hmem, hflags ▸ rfl, runStateLegal_of_running m hr⟩

/-- Settles O2: the reset state is running, with no flag true and empty memory. -/
theorem resetHasInv : Obligations.ResetHasInv := by
  unfold Obligations.ResetHasInv
  exact fun m => inv_of_reset_flags m State.reset_mem_wf rfl rfl

/-- Settles O6: nothing is placed, and the first step is evaluated under the default opcodes. -/
theorem emptyImageFaultsAtOnce : Obligations.EmptyImageFaultsAtOnce := by
  unfold Obligations.EmptyImageFaultsAtOnce
  exact ⟨rfl, rfl⟩

/-- An image of at most 256 bytes is placed from address 0 on in the reset state (R131). -/
theorem launch_of_le {image : List Byte} (h : image.length ≤ Config.memSize) :
    launch image = .next (State.reset.placeBytes 0 image) := if_pos h

/-- A longer image is refused (decision D21). -/
theorem launch_of_lt {image : List Byte} (h : Config.memSize < image.length) :
    launch image = .refused (.imageTooLong image.length) := if_neg (Nat.not_le.mpr h)

/-- Settles O5: the image is placed from address 0 on, so byte `i` of it is `i` from the first, and
placing bytes writes memory only. -/
theorem launchPlacesImage : Obligations.LaunchPlacesImage := by
  unfold Obligations.LaunchPlacesImage
  refine fun image => ⟨fun hle => ⟨_, launch_of_le hle, fun a => ?placed, ?rest⟩, launch_of_lt⟩
  case placed =>
    rw [State.placeBytes_memRead _ _ _ _ hle, sub_zero, State.reset_memRead]
  case rest =>
    have hwf := State.reset.placeBytes_wf 0 image State.reset_mem_wf
    rw [State.placeBytes_eq]
    exact ⟨rfl, rfl, rfl, rfl, rfl, hwf⟩

/-- A launched image meets the invariant, the base case of every run. -/
theorem inv_of_launch (m : OpcodeMap) {image : List Byte} {s : State}
    (h : launch image = .next s) : Inv m s := by
  rcases Nat.lt_or_ge Config.memSize image.length with hlong | hle
  · cases (launch_of_lt hlong).symm.trans h
  · cases (launch_of_le hle).symm.trans h
    have hwf := State.reset.placeBytes_wf 0 image State.reset_mem_wf
    rw [State.placeBytes_eq]
    exact inv_of_reset_flags m hwf rfl rfl

/-- No state that meets the invariant records DivisionByZero (R77). -/
theorem Inv.rs_ne_divisionByZero {m : OpcodeMap} {s : State} (h : Inv m s) (pc : Byte)
    (a b : RegName) : s.rs ≠ .fault (.divisionByZero pc a b) := by
  intro hrs
  have hlegal := h.rs_legal
  rw [RunStateLegal, hrs] at hlegal
  exact hlegal

/-- Settles O4: the invariant holds at the launch and every step keeps it, and it excludes
DivisionByZero. -/
theorem launchedRunsKeepInv : Obligations.LaunchedRunsKeepInv := by
  unfold Obligations.LaunchedRunsKeepInv
  intro m image s t n hlaunch hrun
  have hinv : Inv m t := runsTo_keeps (stepKeepsInv m) n s t (inv_of_launch m hlaunch) hrun
  exact ⟨hinv, hinv.rs_ne_divisionByZero⟩

/-! ### A table word stored at `pc` -/

/-- The bytes of a table word stored at `pc` are the ones the next fetch can reach. -/
theorem State.withFetchWord_window (s : State) (nbits w : Nat) :
    (s.withFetchWord nbits w).window = tableBytes nbits w := by
  have hpc : (s.withFetchWord nbits w).pc = s.pc := by
    rw [State.withFetchWord, State.setRunState_pc, State.placeBytes_eq]
  have hread : ∀ b : Byte, (s.withFetchWord nbits w).memRead b =
      (tableBytes nbits w).getD (b - s.pc).toNat (s.memRead b) := fun b =>
    s.placeBytes_memRead s.pc b (tableBytes nbits w) (by simp [tableBytes])
  simp [State.window, State.operandAddr1, State.operandAddr2, hpc, hread, tableBytes]

/-- The instruction of a table word is the one the decoder reads off its bytes. -/
theorem exists_decodeWith_of_decodeTableWord {nbits w : Nat} {i : Instr}
    (h : decodeTableWord nbits w = some i) :
    ∃ rest, decodeWith Config.opcodes (tableBytes nbits w) = .ok (i, rest) := by
  unfold decodeTableWord at h
  split at h
  · next j rest hd =>
    cases h
    exact ⟨rest, hd⟩
  · cases h

/-- Settles O12: the fetch window holds the word's bytes, so the instruction fetched is the one the
decoder reads from the word. -/
theorem storedWordIsTheNextInstruction : Obligations.StoredWordIsTheNextInstruction := by
  unfold Obligations.StoredWordIsTheNextInstruction
  intro s nbits w i hword
  obtain ⟨rest, hdecode⟩ := exists_decodeWith_of_decodeTableWord hword
  rw [← s.withFetchWord_window nbits w] at hdecode
  exact stepWith_exec rfl (State.fetchInstr_of_decodeWith_window hdecode)

end Sys2Proof.Machine
end

section
/-! PROOFS. PRN (spec/42_load_print.md R86) and the instructions that use the stack: PUSH and POP
(spec/43_stack.md R91, R92), CALL (spec/44_control.md R96) and what pairs of them do (R93, R101). -/

namespace Sys2Proof.Machine

/-- Settles O25: `exec_prn` names the next state, one value appended and an advance. -/
theorem prnEmitsRegister : Obligations.PrnEmitsRegister := by
  unfold Obligations.PrnEmitsRegister
  intro m s r op1
  exact ⟨rfl, ⟨_, exec_prn s r, rfl, fun _ _ => rfl, State.advance_pc_toNat _ 2, rfl, rfl,
    fun _ => rfl⟩, operandFault_of_one s rfl⟩

/-! ### The two stack operations -/

/-- SP goes down modulo 256 (R90). -/
theorem State.pushAddr_toNat (s : State) :
    (s.pushAddr.toNat : Int) = ((s.sp.toNat : Int) - 1) % 256 := by
  have hone : (1 : Byte).toNat = 1 := rfl
  rw [State.pushAddr, BitVec.toNat_sub, hone]
  omega

/-- The cell below SP, popped, gives SP back (R90). -/
@[simp] theorem State.pushAddr_add_one (s : State) : s.pushAddr + 1 = s.sp :=
  sub_add_cancel s.sp 1

/-- A push keeps every register but SP. -/
theorem State.push_regsKept (s : State) (v : Byte) : RegsKept s (s.push v) [7] := fun q hq => by
  rw [State.push_reg, if_neg (List.ne_of_not_mem_cons hq)]

/-- A push keeps every byte but the one below SP. -/
theorem State.push_memKeptBut (s : State) (v : Byte) : MemKeptBut s (s.push v) s.pushAddr :=
  fun b hb => by rw [State.push_memRead, if_neg hb]

/-- A push stores its byte below SP. -/
@[simp] theorem State.push_memRead_pushAddr (s : State) (v : Byte) :
    (s.push v).memRead s.pushAddr = v := by
  rw [State.push_memRead, if_pos rfl]

/-- A write to a register other than SP keeps SP. -/
theorem State.setReg_sp_other (s : State) {d : RegName} (v : Byte) (h : d ≠ 7) :
    (s.setReg d v).sp = s.sp :=
  s.setReg_reg_other d 7 v h.symm

/-- A pop into a register other than SP leaves the popped byte there (R92). -/
theorem State.setReg_incSp_reg_same (s : State) {d : RegName} (v : Byte) (h : d ≠ 7) :
    (s.setReg d v).incSp.reg d = v := by
  rw [State.incSp_reg, if_neg h, State.setReg_reg_same]

/-- A pop keeps every register but its destination and SP. -/
theorem State.setReg_incSp_regsKept (s : State) (d : RegName) (v : Byte) :
    RegsKept s (s.setReg d v).incSp [d, 7] := fun q hq => by
  simp only [List.mem_cons, List.not_mem_nil, or_false, not_or] at hq
  rw [State.incSp_reg, if_neg hq.2, State.setReg_reg_other _ _ _ _ hq.1]

/-! ### PUSH, POP and CALL -/

/-- Settles O28: `exec_push` names the next state, a push of the register as SP's decrement leaves
it. -/
theorem pushStoresBelow : Obligations.PushStoresBelow := by
  unfold Obligations.PushStoresBelow
  intro m s r op1
  refine ⟨rfl, ⟨_, exec_push s r, ?sp, s.decSp_sp, ?stored,
    s.push_memKeptBut (s.decSp.reg r), s.push_regsKept (s.decSp.reg r),
    State.advance_pc_toNat _ 2, rfl, rfl, rfl⟩, operandFault_of_one s rfl⟩
  case sp => rw [State.advance_sp, State.push_sp, State.pushAddr_toNat]
  case stored => rw [State.advance_memRead, State.push_memRead_pushAddr, State.decSp_reg]

/-- Settles O29: `exec_pop` names the next state, a write of the top of the stack and then SP's
increment, which reads SP after that write. -/
theorem popLoadsTop : Obligations.PopLoadsTop := by
  unfold Obligations.PopLoadsTop
  intro m s d op1
  refine ⟨rfl, ⟨_, exec_pop s d, fun hd => ⟨s.setReg_incSp_reg_same _ hd, ?other⟩, ?sp,
    s.setReg_incSp_regsKept d _, State.advance_pc_toNat _ 2, rfl, rfl, fun _ => rfl, rfl⟩,
    operandFault_of_one s rfl⟩
  case other => rw [State.advance_sp, State.incSp_sp_toNat, s.setReg_sp_other _ hd]
  case sp =>
    rintro rfl
    rw [State.advance_sp, State.incSp_sp_toNat, State.sp_eq_reg, State.setReg_reg_same, State.top]

/-- Settles O30: `exec_call` names the next state, a push of the return address and a write to `pc`
of the register as SP's decrement leaves it. -/
theorem callPushesReturnAddress : Obligations.CallPushesReturnAddress := by
  unfold Obligations.CallPushesReturnAddress
  intro m s r op1
  refine ⟨rfl, ⟨_, exec_call s r, ?sp, s.decSp_sp, ?stored,
    s.push_memKeptBut (s.pc + 2), s.push_regsKept (s.pc + 2), s.decSp_reg r, rfl, rfl, rfl⟩,
    operandFault_of_one s rfl⟩
  case sp => rw [State.setPc_sp, State.push_sp, State.pushAddr_toNat]
  case stored =>
    rw [State.setPc_memRead, State.push_memRead_pushAddr]
    exact s.advance_pc_toNat 2

/-- The reset state pushes to address 255 (R27, decision D4). -/
theorem State.reset_pushAddr : State.reset.pushAddr = 255 := by decide

/-- Settles O7: each instruction's own rule at the reset state, where every register reads 0, SP is
0 and no flag is true. -/
theorem firstStepsFromReset : Obligations.FirstStepsFromReset := by
  unfold Obligations.FirstStepsFromReset
  intro r
  refine ⟨⟨_, exec_push _ r, ?pushSp, ?pushed⟩, ⟨_, exec_call _ r, ?callSp, ?called⟩,
    ⟨_, exec_jeq _ r, rfl⟩, ⟨_, exec_jne _ r, rfl⟩⟩
  case pushSp =>
    rw [State.advance_sp, State.push_sp, State.reset_pushAddr]
    rfl
  case pushed =>
    rw [State.advance_memRead, ← State.reset_pushAddr, State.push_memRead_pushAddr,
      State.decSp_reg, State.reset_reg]
  case callSp =>
    rw [State.setPc_sp, State.push_sp, State.reset_pushAddr]
    rfl
  case called =>
    rw [State.setPc_memRead, ← State.reset_pushAddr, State.push_memRead_pushAddr]
    rfl

/-- Settles O47: the store of a PUSH or a CALL is in memory when the next opcode is fetched. -/
theorem storesAreFetchedAtOnce : Obligations.StoresAreFetchedAtOnce := by
  unfold Obligations.StoresAreFetchedAtOnce
  intro m s r hr
  refine ⟨fun hf => ⟨_, (stepWith_exec hr hf).trans (exec_push s r), hr, fun hpc => ?push⟩,
    fun hf => ⟨_, (stepWith_exec hr hf).trans (exec_call s r), hr, fun hpc => ?call⟩⟩
  case push =>
    rw [State.fetchOpcode, hpc, State.advance_memRead, State.push_memRead_pushAddr,
      State.decSp_reg]
  case call =>
    rw [State.fetchOpcode, hpc, State.setPc_memRead, State.push_memRead_pushAddr]

/-! ### Pairs of stack instructions -/

/-- Where `pc` addresses a row's opcode, that row's instruction is fetched. -/
theorem State.fetchInstr_of_byte {m : OpcodeMap} (hm : m.Distinct) {s : State} {op : Op}
    (h : s.memRead s.pc = m.byte op) :
    s.fetchInstr m = some (op.toInstr (s.fetchOp1 op) (s.fetchOp2 op)) := by
  rw [State.fetchInstr, State.fetchOpcode, h, decodeOpcode_byte m hm]

/-- Where `pc` addresses the two bytes of a PUSH, it is fetched. -/
theorem State.fetchInstr_push {m : OpcodeMap} (hm : m.Distinct) {s : State} {b : Byte}
    (hopcode : s.memRead s.pc = m.push) (hoperand : s.memRead (s.pc + 1) = b) :
    s.fetchInstr m = some (.push b) :=
  hoperand ▸ State.fetchInstr_of_byte hm (op := .push) hopcode

/-- Where `pc` addresses the two bytes of a POP, it is fetched. -/
theorem State.fetchInstr_pop {m : OpcodeMap} (hm : m.Distinct) {s : State} {b : Byte}
    (hopcode : s.memRead s.pc = m.pop) (hoperand : s.memRead (s.pc + 1) = b) :
    s.fetchInstr m = some (.pop b) :=
  hoperand ▸ State.fetchInstr_of_byte hm (op := .pop) hopcode

/-- Settles O48, from what PUSH and POP do: the PUSH keeps the POP's two bytes, so the
POP runs next; it finds SP at the cell just stored and sets SP back. -/
theorem pushThenPopRestores : Obligations.PushThenPopRestores := by
  unfold Obligations.PushThenPopRestores
  intro m s r d hm hr hr7 hd7 hpushByte hsrc hpopByte hdst hopcodeKept hoperandKept
  obtain ⟨-, ⟨t, hpush, htspInt, htsp, hstored, htmem, htregs, htpcNat, htflags, htrs, htout⟩, -⟩ :=
    pushStoresBelow m s r 0
  obtain ⟨-, ⟨u, hpop, hload, -, huregs, hupcNat, huflags, hurs, humem, huout⟩, -⟩ :=
    popLoadsTop m t d 0
  obtain ⟨hvalue, huspNat⟩ := hload hd7
  rw [if_neg hr7] at hstored
  have htpc : t.pc = s.pc + 2 := by bv_omega
  have hfetchPush : s.fetchInstr m = some (.push (regByte r)) :=
    State.fetchInstr_push hm hpushByte hsrc
  have hfetchPop : t.fetchInstr m = some (.pop (regByte d)) := by
    refine State.fetchInstr_pop hm ?_ ?_
    · rw [htpc, htmem _ hopcodeKept.symm, hpopByte]
    · have hnext : t.pc + 1 = s.pc + 3 := by bv_omega
      rw [hnext, htmem _ hoperandKept.symm, hdst]
  have husp : u.sp = s.sp := BitVec.eq_of_toNat_eq (by omega)
  refine ⟨t, u, (stepWith_exec hr hfetchPush).trans hpush,
    (stepWith_exec (htrs.trans hr) hfetchPop).trans hpop, ?value, husp, fun q hq => ?regs,
    (humem _).trans hstored, fun a ha => (humem a).trans (htmem a ha), by bv_omega,
    huflags.trans htflags, hurs.trans (htrs.trans hr), huout.trans htout⟩
  case value => rw [hvalue, htsp, hstored]
  case regs =>
    by_cases hq7 : q = 7
    · rw [hq7]
      exact husp
    · have hqd : q ≠ d := List.ne_of_not_mem_cons hq
      exact (huregs q (by simp [hqd, hq7])).trans (htregs q (by simp [hq7]))

/-- Settles O49: the RET reads at its SP the byte the CALL stored there, and its increment undoes
the CALL's decrement. -/
theorem callThenRetReturns : Obligations.CallThenRetReturns := by
  unfold Obligations.CallThenRetReturns
  intro s t u r hcall hsp hcell
  cases (exec_call s r).symm.trans hcall
  have htop : u.top = s.pc + 2 := by
    rw [State.top, hsp, hcell, State.setPc_memRead, State.push_memRead_pushAddr]
  refine ⟨_, exec_ret u, ?pc, ?sp, s.push_regsKept (s.pc + 2), rfl,
    regsKept_incSp (u.setPc u.top), rfl⟩
  case pc =>
    rw [State.incSp_pc, State.setPc_pc, htop]
    exact s.advance_pc_toNat 2
  case sp => rw [State.incSp_sp, State.setPc_sp, hsp, State.pushAddr_add_one]

end Sys2Proof.Machine
end

section
/-! PROOFS. The ALU's five operations (spec/41_alu.md R70 to R75). -/

namespace Sys2Proof.Machine

/-- A write to one register keeps every other. -/
theorem State.setReg_regsKept (s : State) (r : RegName) (v : Byte) :
    RegsKept s (s.setReg r v) [r] := fun q hq =>
  s.setReg_reg_other r q v (List.ne_of_not_mem_cons hq)

/-- Settles O36: each operation writes the machine's sum, difference or product to `x[a]`, which is
the exact one modulo 256. -/
theorem aluArithmeticWraps : Obligations.AluArithmeticWraps := by
  unfold Obligations.AluArithmeticWraps
  intro s a b
  refine ⟨⟨_, rfl, ?sum, s.setReg_regsKept a _, rfl⟩, ⟨_, rfl, ?difference, s.setReg_regsKept a _,
    rfl⟩, ⟨_, rfl, ?product, s.setReg_regsKept a _, rfl⟩⟩
  case sum =>
    rw [State.setReg_reg_same, BitVec.toNat_add]
    norm_cast
  case difference =>
    rw [State.setReg_reg_same, BitVec.toNat_sub]
    omega
  case product =>
    rw [State.setReg_reg_same, BitVec.toNat_mul]
    norm_cast

/-- Settles O37: the divisor is 0 exactly if its value is, and else the machine's quotient is the
integer one. -/
theorem aluDivTruncatesOrFaults : Obligations.AluDivTruncatesOrFaults := by
  unfold Obligations.AluDivTruncatesOrFaults
  refine fun s a b => ⟨fun hb => ?quotient, fun hb => ?zero⟩
  case quotient =>
    have hne : s.reg b ≠ 0 := fun h => hb (congrArg BitVec.toNat h)
    refine ⟨_, if_neg hne, ?_, s.setReg_regsKept a _, rfl⟩
    rw [State.setReg_reg_same, BitVec.toNat_udiv]
  case zero =>
    have hzero : s.reg b = 0 := BitVec.eq_of_toNat_eq hb
    exact if_pos hzero

/-- A comparison gives L only exactly on "less than" (R75). -/
theorem compareFlags_eq_less_iff (x y : Byte) :
    compareFlags x y = ⟨true, false, false⟩ ↔ x.toNat < y.toNat := by
  simp only [compareFlags, Flags.mk.injEq, decide_eq_true_iff, decide_eq_false_iff_not]
  omega

/-- A comparison gives G only exactly on "greater than" (R75). -/
theorem compareFlags_eq_greater_iff (x y : Byte) :
    compareFlags x y = ⟨false, true, false⟩ ↔ x.toNat > y.toNat := by
  simp only [compareFlags, Flags.mk.injEq, decide_eq_true_iff, decide_eq_false_iff_not]
  omega

/-- A comparison gives E only exactly on equal values (R75). -/
theorem compareFlags_eq_equal_iff (x y : Byte) :
    compareFlags x y = ⟨false, false, true⟩ ↔ x.toNat = y.toNat := by
  simp only [compareFlags, Flags.mk.injEq, decide_eq_true_iff, decide_eq_false_iff_not]
  omega

/-- Settles O38: CMP writes the flags of the comparison and nothing else. -/
theorem aluCmpSetsExactlyOneFlag : Obligations.AluCmpSetsExactlyOneFlag := by
  unfold Obligations.AluCmpSetsExactlyOneFlag
  intro s a b
  refine ⟨_, rfl, compareFlags_eq_less_iff _ _, compareFlags_eq_greater_iff _ _,
    compareFlags_eq_equal_iff _ _, compareFlags_exactlyOne _ _, ?self, rfl⟩
  case self =>
    rintro rfl
    exact (compareFlags_eq_equal_iff _ _).mpr rfl

end Sys2Proof.Machine
end

section
/-! PROOFS. Rules about every instruction at once: `pc` (spec/10_state.md R16), FL (R19, R21), the
registers (R13) and the output (R24). -/

namespace Sys2Proof.Machine

/-- Where a branch goes, as a case of its condition (R99, R100). -/
theorem branchIf_pc_if (c : Bool) (r : RegName) (s : State) :
    if c then (branchIf c r s).pc = s.reg r
    else (branchIf c r s).pc.toNat = (s.pc.toNat + 2) % 256 := by
  cases c with
  | false => exact branchIf_pc_toNat_not_taken rfl r s
  | true => exact branchIf_pc_taken rfl r s

/-- Settles O23: an operand fault keeps `pc`, and each instruction's effect writes it as its rule
says; an operand byte names one register only. -/
theorem programCounterTable : Obligations.ProgramCounterTable := by
  unfold Obligations.ProgramCounterTable
  intro m s t i hr hf hstep
  rcases exec_cases i s with ⟨-, u, he, hexec⟩ | ⟨b, hb, hexec⟩
  · cases ((stepWith_exec hr hf).trans hexec).symm.trans hstep
    refine ⟨by simp [he.wf], fun _ => ?_⟩
    cases he with
    | ldi | mul | cmp => exact State.advance_pc_toNat _ 3
    | prn | push | pop => exact State.advance_pc_toNat _ 2
    | call r =>
      intro q hq
      cases regByte_inj hq
      rfl
    | ret => rfl
    | jmp r =>
      intro q hq
      cases regByte_inj hq
      rfl
    | jeq r =>
      intro q hq
      cases regByte_inj hq
      exact branchIf_pc_if s.flags.equal r s
    | jne r =>
      intro q hq
      cases regByte_inj hq
      split
      · next hset =>
        exact branchIf_pc_toNat_not_taken (s.flags.neHolds_eq_false_iff.mpr hset) r s
      · next hclear =>
        exact branchIf_pc_taken (s.flags.neHolds_eq_true_iff.mpr (by simpa using hclear)) r s
    | hlt => rfl
  · cases ((stepWith_exec hr hf).trans hexec).symm.trans hstep
    exact ⟨fun _ => rfl, by simp [wf_of_firstBadOperand hb]⟩

/-! ### Flags -/

/-- A branch under other flags with the same condition does the same. -/
theorem branchIf_setFlags (c : Bool) (r : RegName) (s : State) (f : Flags) :
    branchIf c r (s.setFlags f) = (branchIf c r s).setFlags f := by
  cases c <;> rfl

/-- An instruction other than CMP has the same effect under any flags, a branch under any with the
same E (R19). -/
theorem Effect.setFlags {s t : State} {i : Instr} (he : Effect s i t) {f : Flags}
    (hread : (∀ a : Byte, i ≠ .jeq a ∧ i ≠ .jne a) ∨ f.equal = s.flags.equal)
    (hcmp : ∀ a b : Byte, i ≠ .cmp a b) : Effect (s.setFlags f) i (t.setFlags f) := by
  cases he with
  | ldi d imm => exact .ldi d imm
  | prn r => exact .prn r
  | mul a b => exact .mul a b
  | cmp a b => exact absurd rfl (hcmp _ _)
  | push r => exact .push r
  | pop d => exact .pop d
  | call r => exact .call r
  | ret => exact .ret
  | jmp r => exact .jmp r
  | jeq r =>
    have hsame : f.equal = s.flags.equal := hread.resolve_left fun h => (h _).1 rfl
    rw [← branchIf_setFlags, Flags.eqHolds_eq, ← hsame]
    exact .jeq r
  | jne r =>
    have hsame : f.equal = s.flags.equal := hread.resolve_left fun h => (h _).2 rfl
    rw [← branchIf_setFlags, Flags.neHolds, ← hsame]
    exact .jne r
  | hlt => exact .hlt

/-- Settles O40: an effect under other flags is the same effect, and the operand fault is decided
by the operands alone. -/
theorem onlyCmpWritesOnlyBranchesReadFlags : Obligations.OnlyCmpWritesOnlyBranchesReadFlags := by
  unfold Obligations.OnlyCmpWritesOnlyBranchesReadFlags
  intro i s t hexec
  refine ⟨exec_flags_of_ne_cmp hexec, fun f hread hcmp => ?_⟩
  rcases exec_cases i s with ⟨-, u, he, hu⟩ | ⟨b, hb, hu⟩
  · cases hu.symm.trans hexec
    exact (he.setFlags hread hcmp).exec_eq
  · cases hu.symm.trans hexec
    exact exec_of_firstBadOperand (s.setFlags f) hb

/-- Settles O41: a step keeps FL or writes the flags of a comparison, of which exactly one is
true. -/
theorem flagsNeverReturnToNone : Obligations.FlagsNeverReturnToNone := by
  unfold Obligations.FlagsNeverReturnToNone
  intro m s t hone hstep
  cases transition_of_stepWith hstep with
  | stopped | unknown | badOperand => exact hone
  | effect _ _ he =>
    rcases he.flags_cases with hf | ⟨x, y, hf⟩
    · rwa [hf]
    · rw [hf]
      exact compareFlags_exactlyOne x y

/-! ### Registers -/

/-- A register that changes is one of those not kept. -/
theorem RegsKept.mem_of_ne {s t : State} {written : List RegName} {q : RegName}
    (h : RegsKept s t written) (hq : t.reg q ≠ s.reg q) : q ∈ written := by
  by_contra hnot
  exact hq (h q hnot)

/-- A register that changes where only one may is that one. -/
theorem RegsKept.eq_of_ne {s t : State} {r q : RegName} (h : RegsKept s t [r])
    (hq : t.reg q ≠ s.reg q) : q = r :=
  List.mem_singleton.mp (h.mem_of_ne hq)

/-- Settles O42: each effect keeps every register but those its rule writes, and an operand fault
keeps all. -/
theorem registerWriteTable : Obligations.RegisterWriteTable := by
  unfold Obligations.RegisterWriteTable
  intro i s t q hexec hq
  rcases exec_cases i s with ⟨-, u, he, hu⟩ | ⟨b, hb, hu⟩
  · cases hu.symm.trans hexec
    cases he with
    | ldi d imm => rw [(regsKept_setReg_advance s d imm 3).eq_of_ne hq]
    | mul a b => rw [(regsKept_setReg_advance s a _ 3).eq_of_ne hq]
    | push r => exact (s.push_regsKept (s.decSp.reg r)).eq_of_ne hq
    | pop d =>
      have hmem := (s.setReg_incSp_regsKept d s.top).mem_of_ne hq
      rcases List.mem_cons.mp hmem with rfl | hsp
      · exact .inl rfl
      · exact .inr (List.mem_singleton.mp hsp)
    | call r => exact (s.push_regsKept (s.pc + 2)).eq_of_ne hq
    | ret => exact (regsKept_incSp (s.setPc s.top)).eq_of_ne hq
    | jeq r => exact hq (branchIf_reg _ r s q)
    | jne r => exact hq (branchIf_reg _ r s q)
    | prn | cmp | jmp | hlt => exact hq rfl
  · cases hu.symm.trans hexec
    exact absurd rfl hq

/-! ### Output -/

/-- Only PRN's rule adds to the output, the value of its register (R24). -/
theorem Effect.out_cases {s t : State} {i : Instr} (he : Effect s i t) :
    t.out = s.out ∨ ∃ r : RegName, i = .prn (regByte r) ∧ t.out = s.out ++ [s.reg r] := by
  cases he with
  | prn r => exact .inr ⟨r, rfl, rfl⟩
  | jeq r => exact .inl (branchIf_out _ r s)
  | jne r => exact .inl (branchIf_out _ r s)
  | _ => exact .inl rfl

/-- A step's output is what it was with something appended, or nothing. -/
theorem out_isPrefix_of_stepWith {m : OpcodeMap} {s t : State} (h : stepWith m s = .next t) :
    s.out <+: t.out := by
  cases transition_of_stepWith h with
  | stopped | unknown | badOperand => exact List.prefix_rfl
  | effect _ _ he =>
    rcases he.out_cases with hout | ⟨r, -, hout⟩
    · rw [hout]
    · rw [hout]
      exact List.prefix_append s.out [s.reg r]

/-- Settles O43: one instruction adds one value or none, and "starts with" is reflexive and
transitive, so it holds along a run. -/
theorem outputOnlyGrows : Obligations.OutputOnlyGrows := by
  unfold Obligations.OutputOnlyGrows
  refine ⟨fun i s t hexec => ?instruction, fun m => ?run⟩
  case instruction =>
    rcases exec_cases i s with ⟨-, u, he, hu⟩ | ⟨b, -, hu⟩
    · cases hu.symm.trans hexec
      exact he.out_cases
    · cases hu.symm.trans hexec
      exact .inl rfl
  case run =>
    exact runsTo_related (R := fun s t => s.out <+: t.out) (fun _ => List.prefix_rfl)
      (fun _ _ _ => List.IsPrefix.trans) fun _ _ => out_isPrefix_of_stepWith

end Sys2Proof.Machine
end

section
/-! PROOFS. The memory port: the access list of a step and what the step does to memory
(spec/20_memory.md R32). -/

namespace Sys2Proof.Machine

/-! ### The access list -/

/-- A stopped machine makes no access (R65). -/
theorem stepAccesses_stopped {m : OpcodeMap} {s : State} (hr : s.rs ≠ .running) :
    stepAccesses m s = [] := by
  unfold stepAccesses
  split
  · rfl
  · rfl
  · next h => exact absurd h hr

/-- Of an unknown instruction only the opcode byte is read (R62). -/
theorem stepAccesses_unknown {m : OpcodeMap} {s : State} (hr : s.rs = .running)
    (hf : s.fetchInstr m = none) : stepAccesses m s = [.read s.pc] := by
  simp only [stepAccesses, hr, State.fetchInstr_none.mp hf]

/-- The instruction fetched is made of its row and the operand bytes fetched for that row. -/
theorem State.toInstr_of_fetchInstr {m : OpcodeMap} {s : State} {i : Instr}
    (hf : s.fetchInstr m = some i) : i.op.toInstr (s.fetchOp1 i.op) (s.fetchOp2 i.op) = i := by
  have hop := (State.fetchInstr_some hf).1
  simp only [State.fetchInstr, hop] at hf
  exact Option.some.inj hf

/-- Of a fetched instruction its bytes are read, and then the data its rule needs, if the operand
check passes (R32, R63). -/
theorem stepAccesses_fetched {m : OpcodeMap} {s : State} {i : Instr} (hr : s.rs = .running)
    (hf : s.fetchInstr m = some i) :
    stepAccesses m s = fetchAccesses i.op s ++ if i.wf then dataAccesses i.op s else [] := by
  simp only [stepAccesses, hr, (State.fetchInstr_some hf).1, State.toInstr_of_fetchInstr hf]

/-- Of an instruction with a bad operand only its bytes are read (R63). -/
theorem stepAccesses_badOperand {m : OpcodeMap} {s : State} {i : Instr} {b : Byte}
    (hr : s.rs = .running) (hf : s.fetchInstr m = some i) (hb : i.firstBadOperand = some b) :
    stepAccesses m s = fetchAccesses i.op s := by
  rw [stepAccesses_fetched hr hf, wf_of_firstBadOperand hb]
  exact List.append_nil _

/-- An instruction that passes the operand check makes its data accesses after its fetch. -/
theorem stepAccesses_effect {m : OpcodeMap} {s t : State} {i : Instr} (hr : s.rs = .running)
    (hf : s.fetchInstr m = some i) (he : Effect s i t) :
    stepAccesses m s = fetchAccesses i.op s ++ dataAccesses i.op s := by
  rw [stepAccesses_fetched hr hf, he.wf, if_pos rfl]

/-- Fetch reads as many of the three bytes from `pc` on as the row is long (R45). -/
theorem fetchAccesses_eq_map (op : Op) (s : State) :
    fetchAccesses op s =
      ([s.pc, s.operandAddr1, s.operandAddr2].take op.length).map Access.read := by
  cases op <;> rfl

/-- Fetch writes nothing. -/
theorem write_not_mem_fetchAccesses (op : Op) (s : State) (a : Byte) :
    Access.write a ∉ fetchAccesses op s := by
  rw [fetchAccesses_eq_map, List.mem_map]
  rintro ⟨b, -, hb⟩
  cases hb

/-- A fetch of as many bytes as the row is long and the row's data accesses are at most three. -/
theorem length_add_dataAccesses_length_le (op : Op) (s : State) :
    op.length + (dataAccesses op s).length ≤ 3 := by
  cases op <;> simp [dataAccesses, Op.length, Op.format, Format.length]

/-- A fetch has as many accesses as the row is long. -/
theorem fetchAccesses_length (op : Op) (s : State) : (fetchAccesses op s).length = op.length := by
  cases op <;> rfl

/-- A step makes at most three accesses. -/
theorem stepAccesses_length_le (m : OpcodeMap) (s : State) : (stepAccesses m s).length ≤ 3 := by
  obtain ⟨t, -, htr⟩ := exists_transition m s
  cases htr with
  | stopped hr => simp [stepAccesses_stopped hr]
  | unknown hr hf => simp [stepAccesses_unknown hr hf]
  | @badOperand hr i b hf hb =>
    rw [stepAccesses_badOperand hr hf hb, fetchAccesses_length]
    exact i.op.length_bounds.2
  | @effect hr i _ hf he =>
    rw [stepAccesses_effect hr hf he, List.length_append, fetchAccesses_length]
    exact length_add_dataAccesses_length_le i.op s

/-- A step that writes is a running machine's, of an instruction that passes the operand check, and
the write is one of its data accesses. -/
theorem exists_effect_of_write_mem {m : OpcodeMap} {s : State} {a : Byte}
    (h : Access.write a ∈ stepAccesses m s) :
    s.rs = .running ∧ ∃ i t, s.fetchInstr m = some i ∧ Effect s i t ∧
      Access.write a ∈ dataAccesses i.op s := by
  obtain ⟨t, -, htr⟩ := exists_transition m s
  cases htr with
  | stopped hr => simp [stepAccesses_stopped hr] at h
  | unknown hr hf => simp [stepAccesses_unknown hr hf] at h
  | badOperand hr hf hb =>
    rw [stepAccesses_badOperand hr hf hb] at h
    exact absurd h (write_not_mem_fetchAccesses _ s a)
  | @effect hr i _ hf he =>
    rw [stepAccesses_effect hr hf he, List.mem_append] at h
    exact ⟨hr, i, t, hf, he, h.resolve_left (write_not_mem_fetchAccesses _ s a)⟩

/-- Only PUSH and CALL have a write among their data accesses, the one at `pushAddr` alone. -/
theorem Effect.of_write_mem {s t : State} {i : Instr} (he : Effect s i t) {a : Byte}
    (h : Access.write a ∈ dataAccesses i.op s) :
    a = s.pushAddr ∧ dataAccesses i.op s = [.write a] ∧
      ∃ r : RegName, i = .push (regByte r) ∨ i = .call (regByte r) := by
  cases he with
  | push r =>
    cases List.mem_singleton.mp h
    exact ⟨rfl, rfl, r, .inl rfl⟩
  | call r =>
    cases List.mem_singleton.mp h
    exact ⟨rfl, rfl, r, .inr rfl⟩
  | pop | ret => cases List.mem_singleton.mp h
  | _ => cases h

/-- A byte that an instruction changes is one it writes. -/
theorem Effect.write_mem_of_ne {s t : State} {i : Instr} (he : Effect s i t) {a : Byte}
    (h : t.memRead a ≠ s.memRead a) : Access.write a ∈ dataAccesses i.op s := by
  cases he with
  | push r =>
    have ha : a = s.pushAddr := by_contra fun hne => h (s.push_memKeptBut (s.decSp.reg r) a hne)
    exact List.mem_singleton.mpr (congrArg Access.write ha)
  | call r =>
    have ha : a = s.pushAddr := by_contra fun hne => h (s.push_memKeptBut (s.pc + 2) a hne)
    exact List.mem_singleton.mpr (congrArg Access.write ha)
  | jeq r => exact absurd (branchIf_memRead _ r s a) h
  | jne r => exact absurd (branchIf_memRead _ r s a) h
  | _ => exact absurd rfl h

/-- Settles O44: only an instruction's effect changes a byte, and only as its data accesses say;
those of a PUSH or CALL are one write, after the reads of the fetch. -/
theorem memoryPortTraffic : Obligations.MemoryPortTraffic := by
  unfold Obligations.MemoryPortTraffic
  refine fun m s t hstep => ⟨fun a hne => ?changed, fun a hwrite => ?written,
    stepAccesses_length_le m s⟩
  case changed =>
    cases transition_of_stepWith hstep with
    | stopped | unknown | badOperand => exact absurd rfl hne
    | effect hr hf he =>
      rw [stepAccesses_effect hr hf he]
      exact List.mem_append_right _ (he.write_mem_of_ne hne)
  case written =>
    obtain ⟨hr, i, u, hf, he, hmem⟩ := exists_effect_of_write_mem hwrite
    obtain ⟨ha, hdata, r, hi⟩ := he.of_write_mem hmem
    have hfetch : s.fetchInstr m = some (.push (regByte r)) ∨
        s.fetchInstr m = some (.call (regByte r)) := by
      rwa [hf, Option.some.injEq, Option.some.injEq]
    rw [stepAccesses_effect hr hf he, hdata, fetchAccesses_eq_map]
    exact ⟨ha, hr, ⟨r, hfetch⟩, _, rfl⟩

/-! ### A byte that is not read -/

/-- `t'` is `t` but for the byte at `a`. -/
structure AgreeOff (a : Byte) (t t' : State) : Prop where
  regs : t'.regs = t.regs
  pc : t'.pc = t.pc
  flags : t'.flags = t.flags
  rs : t'.rs = t.rs
  out : t'.out = t.out
  mem : MemKeptBut t t' a

/-- A store changes the byte stored to and nothing else. -/
theorem agreeOff_memWrite (t : State) (a v : Byte) : AgreeOff a t (t.memWrite a v) :=
  ⟨rfl, rfl, rfl, rfl, rfl, fun b hb => t.memWrite_memRead_other a b v hb⟩

/-- A push after a store differs from the push alone at the byte stored to only. -/
theorem agreeOff_memWrite_push (s : State) (a v x : Byte) :
    AgreeOff a (s.push x) ((s.memWrite a v).push x) := by
  refine ⟨rfl, rfl, rfl, rfl, rfl, fun b hb => ?_⟩
  rw [State.push_memRead, State.push_memRead, State.memWrite_pushAddr,
    s.memWrite_memRead_other a b v hb]

/-- After a store and a push the byte stored to is the pushed one, if the push went there. -/
theorem State.memWrite_push_memRead (s : State) (a v x : Byte) :
    ((s.memWrite a v).push x).memRead a =
      if Access.write a ∈ [Access.write s.pushAddr] then (s.push x).memRead a else v := by
  rw [State.push_memRead, State.push_memRead, State.memWrite_pushAddr,
    State.memWrite_memRead_same]
  by_cases ha : a = s.pushAddr
  · simp [ha]
  · simp [ha]

/-- A branch after a store is the store after the branch. -/
theorem branchIf_memWrite (c : Bool) (r : RegName) (s : State) (a v : Byte) :
    branchIf c r (s.memWrite a v) = (branchIf c r s).memWrite a v := by
  cases c <;> rfl

/-- The top of the stack is the same after a store elsewhere. -/
theorem State.memWrite_top (s : State) {a : Byte} (v : Byte)
    (h : Access.read a ∉ [Access.read s.sp]) : (s.memWrite a v).top = s.top :=
  s.memWrite_memRead_other a s.sp v fun e => h (List.mem_singleton.mpr (congrArg _ e.symm))

/-- An instruction that stores nothing has the same effect after a store to a byte it does not
read. -/
theorem Effect.memWrite {s t : State} {i : Instr} (he : Effect s i t) {a : Byte} (v : Byte)
    (hread : Access.read a ∉ dataAccesses i.op s)
    (hstore : ∀ b : Byte, Access.write b ∉ dataAccesses i.op s) :
    Effect (s.memWrite a v) i (t.memWrite a v) := by
  cases he with
  | ldi d imm => exact .ldi d imm
  | prn r => exact .prn r
  | mul a b => exact .mul a b
  | cmp a b => exact .cmp a b
  | push r => exact absurd (List.mem_singleton.mpr rfl) (hstore s.pushAddr)
  | pop d =>
    rw [← s.memWrite_top v hread]
    exact .pop d
  | call r => exact absurd (List.mem_singleton.mpr rfl) (hstore s.pushAddr)
  | ret =>
    rw [← s.memWrite_top v hread]
    exact .ret
  | jmp r => exact .jmp r
  | jeq r =>
    rw [← branchIf_memWrite]
    exact .jeq r
  | jne r =>
    rw [← branchIf_memWrite]
    exact .jne r
  | hlt => exact .hlt

/-- After a store to a byte that it does not read, an instruction does the same but for that byte,
which keeps what was stored unless the instruction writes it. -/
theorem Effect.exists_memWrite {s t : State} {i : Instr} (he : Effect s i t) {a : Byte} (v : Byte)
    (hread : Access.read a ∉ dataAccesses i.op s) :
    ∃ t', Effect (s.memWrite a v) i t' ∧ AgreeOff a t t' ∧
      t'.memRead a = if Access.write a ∈ dataAccesses i.op s then t.memRead a else v := by
  by_cases hstore : ∃ b : Byte, Access.write b ∈ dataAccesses i.op s
  · obtain ⟨b, hb⟩ := hstore
    obtain ⟨-, -, r, rfl | rfl⟩ := he.of_write_mem hb
    · cases he.exec_eq.symm.trans (exec_push s r)
      have hmem := (agreeOff_memWrite_push s a v (s.decSp.reg r)).mem
      exact ⟨_, .push r, ⟨rfl, rfl, rfl, rfl, rfl, hmem⟩, s.memWrite_push_memRead a v _⟩
    · cases he.exec_eq.symm.trans (exec_call s r)
      have hmem := (agreeOff_memWrite_push s a v (s.pc + 2)).mem
      exact ⟨_, .call r, ⟨rfl, rfl, rfl, rfl, rfl, hmem⟩, s.memWrite_push_memRead a v _⟩
  · have hnone := not_exists.mp hstore
    refine ⟨_, he.memWrite v hread hnone, agreeOff_memWrite t a v, ?_⟩
    rw [State.memWrite_memRead_same, if_neg (hnone a)]

/-! ### The fetch after a store to a byte that is not read -/

/-- Every fetch reads the opcode byte. -/
theorem read_pc_mem_fetchAccesses (op : Op) (s : State) :
    Access.read s.pc ∈ fetchAccesses op s := by
  cases op <;> exact List.mem_cons_self

/-- The fetch of a row of two bytes or three reads operand 1. -/
theorem read_operandAddr1_mem_fetchAccesses {op : Op} (s : State) (h : 2 ≤ op.length) :
    Access.read s.operandAddr1 ∈ fetchAccesses op s := by
  revert h
  cases op <;> simp [fetchAccesses, Op.length, Op.format, Format.length]

/-- The fetch of a row of three bytes reads operand 2. -/
theorem read_operandAddr2_mem_fetchAccesses {op : Op} (s : State) (h : op.length = 3) :
    Access.read s.operandAddr2 ∈ fetchAccesses op s := by
  revert h
  cases op <;> simp [fetchAccesses, Op.length, Op.format, Format.length]

/-- A byte that is read is the same after a store to one that is not. -/
theorem State.memWrite_memRead_of_read_mem {l : List Access} (s : State) {a b : Byte} (v : Byte)
    (ha : Access.read a ∉ l) (hb : Access.read b ∈ l) :
    (s.memWrite a v).memRead b = s.memRead b := by
  refine s.memWrite_memRead_other a b v ?_
  rintro rfl
  exact ha hb

/-- The operand bytes fetched are the same after a store to a byte that is not fetched. -/
theorem State.memWrite_fetchOps {op : Op} (s : State) {a : Byte} (v : Byte)
    (h : Access.read a ∉ fetchAccesses op s) :
    (s.memWrite a v).fetchOp1 op = s.fetchOp1 op ∧
      (s.memWrite a v).fetchOp2 op = s.fetchOp2 op := by
  constructor
  · unfold State.fetchOp1
    split
    · next hlen =>
      exact s.memWrite_memRead_of_read_mem v h (read_operandAddr1_mem_fetchAccesses s hlen)
    · rfl
  · unfold State.fetchOp2
    split
    · next hlen =>
      exact s.memWrite_memRead_of_read_mem v h (read_operandAddr2_mem_fetchAccesses s hlen)
    · rfl

/-- A step of a running machine reads the byte at `pc` (R61). -/
theorem read_pc_mem_stepAccesses (m : OpcodeMap) {s : State} (hr : s.rs = .running) :
    Access.read s.pc ∈ stepAccesses m s := by
  cases hf : s.fetchInstr m with
  | none =>
    rw [stepAccesses_unknown hr hf]
    exact List.mem_cons_self
  | some i =>
    rw [stepAccesses_fetched hr hf]
    exact List.mem_append_left _ (read_pc_mem_fetchAccesses i.op s)

/-- The opcode byte is the same after a store to a byte that the step does not read. -/
theorem State.memWrite_fetchOpcode {m : OpcodeMap} {s : State} {a : Byte} (v : Byte)
    (hr : s.rs = .running) (hread : Access.read a ∉ stepAccesses m s) :
    (s.memWrite a v).fetchOpcode = s.fetchOpcode :=
  s.memWrite_memRead_of_read_mem v hread (read_pc_mem_stepAccesses m hr)

/-- A running machine fetches the same after a store to a byte that its step does not read. -/
theorem State.memWrite_fetchInstr {m : OpcodeMap} {s : State} {a : Byte} (v : Byte)
    (hr : s.rs = .running) (hread : Access.read a ∉ stepAccesses m s) :
    (s.memWrite a v).fetchInstr m = s.fetchInstr m := by
  have hopcode := State.memWrite_fetchOpcode v hr hread
  cases hf : s.fetchInstr m with
  | none =>
    rw [State.fetchInstr_none, hopcode]
    exact State.fetchInstr_none.mp hf
  | some i =>
    rw [stepAccesses_fetched hr hf, List.mem_append, not_or] at hread
    obtain ⟨hop1, hop2⟩ := s.memWrite_fetchOps v hread.1
    simp only [State.fetchInstr, hopcode, (State.fetchInstr_some hf).1, hop1, hop2,
      State.toInstr_of_fetchInstr hf]

/-- The access list is the same after a store to a byte that is not read. -/
theorem stepAccesses_memWrite {m : OpcodeMap} {s : State} {a : Byte} (v : Byte)
    (hread : Access.read a ∉ stepAccesses m s) :
    stepAccesses m (s.memWrite a v) = stepAccesses m s := by
  by_cases hr : s.rs = .running
  · have hr' : (s.memWrite a v).rs = .running := hr
    have hfetch := State.memWrite_fetchInstr v hr hread
    cases hf : s.fetchInstr m with
    | none =>
      exact (stepAccesses_unknown hr' (hfetch.trans hf)).trans (stepAccesses_unknown hr hf).symm
    | some i =>
      exact (stepAccesses_fetched hr' (hfetch.trans hf)).trans (stepAccesses_fetched hr hf).symm
  · have hr' : (s.memWrite a v).rs ≠ .running := hr
    exact (stepAccesses_stopped hr').trans (stepAccesses_stopped hr).symm

/-- After a store to a byte that a step does not read, the step does the same but for that byte. -/
theorem exists_stepWith_memWrite {m : OpcodeMap} {s t : State} {a : Byte} (v : Byte)
    (hread : Access.read a ∉ stepAccesses m s) (hstep : stepWith m s = .next t) :
    ∃ t', stepWith m (s.memWrite a v) = .next t' ∧ AgreeOff a t t' ∧
      t'.memRead a = if Access.write a ∈ stepAccesses m s then t.memRead a else v := by
  have hsame : Access.write a ∉ stepAccesses m s → (t.memWrite a v).memRead a =
      if Access.write a ∈ stepAccesses m s then t.memRead a else v := fun hwrite => by
    rw [if_neg hwrite, State.memWrite_memRead_same]
  cases transition_of_stepWith hstep with
  | stopped hr =>
    have hr' : (s.memWrite a v).rs ≠ .running := hr
    refine ⟨_, stepWith_stopped hr', agreeOff_memWrite s a v, hsame ?_⟩
    rw [stepAccesses_stopped hr]
    exact List.not_mem_nil
  | unknown hr hf =>
    have hr' : (s.memWrite a v).rs = .running := hr
    have hstep' := stepWith_unknown hr' ((State.memWrite_fetchInstr v hr hread).trans hf)
    rw [State.memWrite_fetchOpcode v hr hread] at hstep'
    refine ⟨_, hstep', agreeOff_memWrite _ a v, hsame ?_⟩
    simp [stepAccesses_unknown hr hf]
  | badOperand hr hf hb =>
    have hr' : (s.memWrite a v).rs = .running := hr
    have hstep' := (stepWith_exec hr' ((State.memWrite_fetchInstr v hr hread).trans hf)).trans
      (exec_of_firstBadOperand _ hb)
    have hopcode : (s.memWrite a v).memRead s.pc = s.memRead s.pc :=
      State.memWrite_fetchOpcode v hr hread
    rw [State.memWrite_pc, hopcode] at hstep'
    refine ⟨_, hstep', agreeOff_memWrite _ a v, hsame ?_⟩
    rw [stepAccesses_badOperand hr hf hb]
    exact write_not_mem_fetchAccesses _ s a
  | @effect hr i _ hf he =>
    have hr' : (s.memWrite a v).rs = .running := hr
    have hf' := (State.memWrite_fetchInstr v hr hread).trans hf
    rw [stepAccesses_effect hr hf he, List.mem_append, not_or] at hread
    obtain ⟨t', he', hoff, hmem⟩ := he.exists_memWrite v hread.2
    refine ⟨t', (stepWith_exec hr' hf').trans he'.exec_eq, hoff, ?_⟩
    simpa only [stepAccesses_effect hr hf he, List.mem_append,
      write_not_mem_fetchAccesses, false_or] using hmem

/-- Settles O45: the fetch is the same, so the same instruction runs or the same fault is taken, and
an instruction's effect does not depend on the byte. -/
theorem unreadBytesDoNotMatter : Obligations.UnreadBytesDoNotMatter := by
  unfold Obligations.UnreadBytesDoNotMatter
  intro m s t a v hread hstep
  obtain ⟨t', hstep', hoff, hmem⟩ := exists_stepWith_memWrite v hread hstep
  exact ⟨t', hstep', hoff.regs, hoff.pc, hoff.flags, hoff.rs, hoff.out, hoff.mem, hmem,
    stepAccesses_memWrite v hread⟩

end Sys2Proof.Machine
end
